-- ==== Sys2Proof/Word.lean ====
section
/-! DEFINITION. The word of the block: a byte (00_scope.md R10). No field of the block is wider than one byte (R10, R32). -/

namespace Sys2Proof

/-- `u8`: an unsigned 8-bit value, bit 0 the least significant (R10). -/
abbrev Byte := BitVec 8

end Sys2Proof
end

