-- ==== Sys2Proof/Config.lean ====
section
/-! DEFINITION. The implementation parameters of one block instance (00_scope.md R5 to R9). They are fixed when the
instance is built (R142) and no operation writes them (R23). A model takes every one of them as an argument: they stand
in one field of State that no step writes (log entry 1). PORT_PROTOCOL and PORT_BASE are taken by no transaction-level
model (92_eei_decisions.md D2; log entry 4). -/

namespace Sys2Proof

/-- `BUF_CAP : Nat ∪ {∞}` (R5). `unbounded` is ∞, the exact reading of the source. -/
inductive Capacity where
  | unbounded
  | bounded (n : Nat)
  deriving DecidableEq, Repr

/-- `VERSION_CHECK_AT` (R6): when a version byte other than 01 is rejected. -/
inductive VersionCheckAt where
  | atComplete
  | atPrefix
  deriving DecidableEq, Repr

/-- `STATE_MAP` (R8): the meaning of the state bytes 01 and 02. -/
inductive StateMap where
  | listed
  | swapped
  deriving DecidableEq, Repr

/-- The command names a consumer uses (30_encoding.md R61). -/
inductive CommandName where
  | wifiSettings
  | identify
  | getState
  | getDeviceInfo
  deriving DecidableEq, Repr

/-- `CMD_MAP` (R9): the consumer's table from command names to command bytes. No operation reads it. -/
structure CmdMap where
  wifiSettings : Byte
  identify : Byte
  getState : Byte
  getDeviceInfo : Byte
  deriving DecidableEq, Repr

/-- The byte a consumer's table gives a command name (R9). -/
def CmdMap.byteOf (m : CmdMap) : CommandName → Byte
  | .wifiSettings => m.wifiSettings
  | .identify => m.identify
  | .getState => m.getState
  | .getDeviceInfo => m.getDeviceInfo

/-- The table the source lists (R61). Identify and GetState share 02 there (90_conflicts.md C1). -/
def CmdMap.listed : CmdMap :=
  { wifiSettings := 0x01#8, identify := 0x02#8, getState := 0x02#8, getDeviceInfo := 0x03#8 }

/-- The parameters of one instance (R5 to R9). -/
structure Params where
  bufCap : Capacity
  versionCheckAt : VersionCheckAt
  hasTxBuilder : Bool
  stateMap : StateMap
  cmdMap : CmdMap
  deriving DecidableEq, Repr

/-- The instance the spec's vectors use unless one says otherwise (95_test_vectors.md, opening; R6, R7, R8).
DESIGN CHOICE (log entry 2): `State.reset` is the reset state of this instance. -/
def Params.standard : Params :=
  { bufCap := .unbounded
    versionCheckAt := .atComplete
    hasTxBuilder := true
    stateMap := .listed
    cmdMap := .listed }

end Sys2Proof
end

