-- ==== Sys2Proof/Syntax.lean ====
section
/-! DEFINITION. The operations of the block (30_encoding.md R66, spec/opcode_table.json), one constructor per row, and
the command a host puts on the command port: an op code and its operands in order (R65). -/

namespace Sys2Proof

/-- The fifteen operations with their operands (R66). A `bytes` operand may have any length, 0 included; a `Nat`
operand is unbounded (R68). -/
inductive Instr where
  | feed (bs : List Byte)
  | step
  | drain
  | reset
  | status
  | checksum (bs : List Byte)
  | verify (bs : List Byte) (c : Byte)
  | findMagic (bs : List Byte)
  | tryDecode (bs : List Byte) (start : Nat)
  | decodeResult (p : List Byte)
  | decodeState (p : List Byte)
  | decodeError (p : List Byte)
  | encodeFrame (t : Byte) (p : List Byte)
  | encodeCommand (c : Byte) (a : List Byte)
  | encodeWifi (ssid : List Byte) (pass : List Byte)
  deriving DecidableEq, Repr

/-- The operations without their operands: the rows of R66. -/
inductive Op where
  | feed
  | step
  | drain
  | reset
  | status
  | checksum
  | verify
  | findMagic
  | tryDecode
  | decodeResult
  | decodeState
  | decodeError
  | encodeFrame
  | encodeCommand
  | encodeWifi
  deriving DecidableEq, Repr

/-- The three operand forms (R65, R68). -/
inductive Kind where
  | u8
  | nat
  | bytes
  deriving DecidableEq, Repr

/-- An operand on the data channel (R65, R68). How it is serialized there is the open parameter PORT_PROTOCOL, which a
model at transaction level does not take (92_eei_decisions.md D2; DESIGN CHOICE, log entry 4). -/
inductive Operand where
  | u8 (b : Byte)
  | nat (n : Nat)
  | bytes (bs : List Byte)
  deriving DecidableEq, Repr

/-- What the host puts on the command port for one operation (R65): one 8-bit op code, then the operands in the order
the operation lists them. -/
structure Command where
  opcode : Byte
  operands : List Operand
  deriving DecidableEq, Repr

/-- The form of an operand. -/
def Operand.kind : Operand → Kind
  | .u8 _ => .u8
  | .nat _ => .nat
  | .bytes _ => .bytes

/-- The operation an instruction is, without its operands. -/
def Instr.op : Instr → Op
  | .feed _ => .feed
  | .step => .step
  | .drain => .drain
  | .reset => .reset
  | .status => .status
  | .checksum _ => .checksum
  | .verify _ _ => .verify
  | .findMagic _ => .findMagic
  | .tryDecode _ _ => .tryDecode
  | .decodeResult _ => .decodeResult
  | .decodeState _ => .decodeState
  | .decodeError _ => .decodeError
  | .encodeFrame _ _ => .encodeFrame
  | .encodeCommand _ _ => .encodeCommand
  | .encodeWifi _ _ => .encodeWifi

end Sys2Proof
end

