-- ==== Sys2Proof/WellFormed.lean ====
section
/-! DEFINITION. When a command on the port is well formed: its op code is assigned (30_encoding.md R66, R67) and its
operands are of the forms, and in the order, that the operation lists (R65, R66, R68). Every term of Instr is a well-formed
operation: a byte operand is a byte by type, and a `bytes` or `Nat` operand has no bound (R68). -/

namespace Sys2Proof

/-- The assigned op codes with the forms of their operands: the `op code` and `operands` columns of R66. -/
def commandForms : List (Byte × List Kind) :=
  [ (0x01#8, [.bytes]), (0x02#8, []), (0x03#8, []), (0x04#8, []), (0x05#8, []) ]
  ++ [ (0x10#8, [.bytes]), (0x11#8, [.bytes, .u8]), (0x12#8, [.bytes]), (0x13#8, [.bytes, .nat]) ]
  ++ [ (0x20#8, [.bytes]), (0x21#8, [.bytes]), (0x22#8, [.bytes]) ]
  ++ [ (0x30#8, [.u8, .bytes]), (0x31#8, [.u8, .bytes]), (0x32#8, [.bytes, .bytes]) ]

/-- The op code is assigned (R67). -/
def Command.opcodeAssigned (c : Command) : Bool :=
  commandForms.any fun r => r.1 == c.opcode

/-- The operands are those the op code's row lists (R66). -/
def Command.operandsAsListed (c : Command) : Bool :=
  commandForms.all fun r => r.1 != c.opcode || c.operands.map Operand.kind == r.2

/-- A well-formed command: both checks hold. -/
def Command.wellFormed (c : Command) : Bool :=
  c.opcodeAssigned && c.operandsAsListed

end Sys2Proof
end

