-- ==== Sys2Proof/Decode.lean ====
section
/-! DEFINITION. Decoding a command of the port into an operation, rejecting by name (30_encoding.md R65 to R68), and the
encoder. The op code is the whole instruction word (R65); an op code outside R66 is illegal (R67), and it is rejected
before any operand is looked at (60_exceptions.md R130, R133). -/

namespace Sys2Proof

/-- Why a command is no operation. -/
inductive DecodeError where
  /-- The op code is not in R66; the operation returns E_ILLEGAL with this op code (R67, R130). -/
  | illegalOpcode (opcode : Byte)
  /-- The op code is assigned but the data channel does not hold the operands its row lists. The spec does not say what
  the block does then (DESIGN CHOICE, log entry 7). -/
  | operandsNotAsListed (opcode : Byte)
  deriving DecidableEq, Repr

/-- The op-code map (R66; spec/opcode_table.json). -/
def opcodeMap : List (Byte × Op) :=
  [ (0x01#8, .feed), (0x02#8, .step), (0x03#8, .drain), (0x04#8, .reset), (0x05#8, .status) ]
  ++ [ (0x10#8, .checksum), (0x11#8, .verify), (0x12#8, .findMagic), (0x13#8, .tryDecode) ]
  ++ [ (0x20#8, .decodeResult), (0x21#8, .decodeState), (0x22#8, .decodeError) ]
  ++ [ (0x30#8, .encodeFrame), (0x31#8, .encodeCommand), (0x32#8, .encodeWifi) ]

/-- The operation an op code names, none if the code is illegal (R66, R67). -/
def decodeOpcode (b : Byte) : Option Op :=
  (opcodeMap.find? fun r => r.1 == b).map Prod.snd

/-- An operation with the operands of the data channel, none if they are not the ones the operation lists (R66). -/
def decodeOperands : Op → List Operand → Option Instr
  | .feed, [.bytes bs] => some (.feed bs)
  | .feed, _ => none
  | .step, [] => some .step
  | .step, _ => none
  | .drain, [] => some .drain
  | .drain, _ => none
  | .reset, [] => some .reset
  | .reset, _ => none
  | .status, [] => some .status
  | .status, _ => none
  | .checksum, [.bytes bs] => some (.checksum bs)
  | .checksum, _ => none
  | .verify, [.bytes bs, .u8 c] => some (.verify bs c)
  | .verify, _ => none
  | .findMagic, [.bytes bs] => some (.findMagic bs)
  | .findMagic, _ => none
  | .tryDecode, [.bytes bs, .nat start] => some (.tryDecode bs start)
  | .tryDecode, _ => none
  | .decodeResult, [.bytes p] => some (.decodeResult p)
  | .decodeResult, _ => none
  | .decodeState, [.bytes p] => some (.decodeState p)
  | .decodeState, _ => none
  | .decodeError, [.bytes p] => some (.decodeError p)
  | .decodeError, _ => none
  | .encodeFrame, [.u8 t, .bytes p] => some (.encodeFrame t p)
  | .encodeFrame, _ => none
  | .encodeCommand, [.u8 c, .bytes a] => some (.encodeCommand c a)
  | .encodeCommand, _ => none
  | .encodeWifi, [.bytes ssid, .bytes pass] => some (.encodeWifi ssid pass)
  | .encodeWifi, _ => none

/-- Decode a command: the op code first, whatever the operands (R130, R133), then the operands. -/
def decode (c : Command) : Except DecodeError Instr :=
  match decodeOpcode c.opcode with
  | none => .error (.illegalOpcode c.opcode)
  | some op =>
    match decodeOperands op c.operands with
    | none => .error (.operandsNotAsListed c.opcode)
    | some i => .ok i

/-- The op code of an operation (R66). -/
def Op.code : Op → Byte
  | .feed => 0x01#8
  | .step => 0x02#8
  | .drain => 0x03#8
  | .reset => 0x04#8
  | .status => 0x05#8
  | .checksum => 0x10#8
  | .verify => 0x11#8
  | .findMagic => 0x12#8
  | .tryDecode => 0x13#8
  | .decodeResult => 0x20#8
  | .decodeState => 0x21#8
  | .decodeError => 0x22#8
  | .encodeFrame => 0x30#8
  | .encodeCommand => 0x31#8
  | .encodeWifi => 0x32#8

/-- The operands of an instruction in the order its operation lists them (R65, R66). -/
def Instr.operands : Instr → List Operand
  | .feed bs => [.bytes bs]
  | .step => []
  | .drain => []
  | .reset => []
  | .status => []
  | .checksum bs => [.bytes bs]
  | .verify bs c => [.bytes bs, .u8 c]
  | .findMagic bs => [.bytes bs]
  | .tryDecode bs start => [.bytes bs, .nat start]
  | .decodeResult p => [.bytes p]
  | .decodeState p => [.bytes p]
  | .decodeError p => [.bytes p]
  | .encodeFrame t p => [.u8 t, .bytes p]
  | .encodeCommand c a => [.u8 c, .bytes a]
  | .encodeWifi ssid pass => [.bytes ssid, .bytes pass]

/-- The command a host puts on the port for an instruction: its op code followed by its operands (R65, R70). -/
def encode (i : Instr) : Command :=
  { opcode := i.op.code, operands := i.operands }

/-- The operand of a form whose bits are all zero: the byte 00, the offset 0, the sequence of no bytes
(DESIGN CHOICE, log entry 5). -/
def Kind.zero : Kind → Operand
  | .u8 => .u8 0x00#8
  | .nat => .nat 0
  | .bytes => .bytes []

/-- The operands of zeros that an op code's row lists; none for an illegal op code, whose operands are not read (R130). -/
def zeroOperands (b : Byte) : List Operand :=
  match commandForms.find? fun r => r.1 == b with
  | none => []
  | some r => r.2.map Kind.zero

/-- The command whose op code is the low byte of the `nbits` bits `w` and whose operands are zeros. Every row of the
opcode table has 8 bits: the op code is the whole instruction word (R65). -/
def commandOfTableWord (nbits w : Nat) : Command :=
  let b : Byte := BitVec.ofNat 8 (w % 2 ^ nbits)
  { opcode := b, operands := zeroOperands b }

/-- What the decoder reads from the instruction whose bits are `w`, its operands zeros. -/
def decodeTableWord (nbits w : Nat) : Option Instr :=
  match decode (commandOfTableWord nbits w) with
  | .ok i => some i
  | .error _ => none

end Sys2Proof
end

