-- ==== Sys2Proof/Machine/State.lean ====
section
/-! DEFINITION. The state of one block instance (10_state.md R17), the records its operations return (R24 to R26,
00_scope.md R14, R15, 30_encoding.md R69, 60_exceptions.md R123), the reasons a step stops, and the reset state (R27). -/

namespace Sys2Proof.Machine

/-- A decoded frame (R24). The magic tag is not stored; the type byte is raw (R57, R83). -/
structure Frame where
  version : Byte
  ftype : Byte
  length : Byte
  payload : List Byte
  checksum : Byte
  deriving DecidableEq, Repr

/-- A decoded RPC result (R25): the echoed command byte and the raw value bytes in payload order. -/
structure RpcResult where
  command : Byte
  values : List (List Byte)
  deriving DecidableEq, Repr

/-- The meaning of a CurrentState payload (R26). -/
inductive DeviceState where
  | awaitingAuthorization
  | authorized
  | provisioning
  | provisioned
  | unrecognizedState (b : Byte)
  deriving DecidableEq, Repr

/-- The meaning of an ErrorState payload (R26). `unknown` is the named code FF. -/
inductive DeviceError where
  | none
  | invalidRpc
  | unknownRpc
  | unableToConnect
  | notAuthorized
  | unknown
  | unrecognizedError (b : Byte)
  deriving DecidableEq, Repr

/-- The verdict of try-decode on a candidate (R15's `Decode`, R79). -/
inductive Verdict where
  | valid (f : Frame) (consumed : Nat)
  | needMoreData
  | invalid
  deriving DecidableEq, Repr

/-- Why the scan stops (R15, R108). A value, not state (R21). -/
inductive StopReason where
  | noMagic
  | needMoreData
  deriving DecidableEq, Repr

/-- What one iteration of the scan gives (R15, R108). -/
inductive StepResult where
  | emit (f : Frame)
  | discard
  | stop (reason : StopReason)
  deriving DecidableEq, Repr

/-- The value of an operation that returns OK, by operation (R69). -/
inductive Value where
  /-- FEED, RESET. -/
  | none
  /-- STEP. -/
  | step (r : StepResult)
  /-- DRAIN. -/
  | drain (frames : List Frame) (reason : StopReason)
  /-- STATUS: the pair of |BUF| and OVF. -/
  | status (length : Nat) (ovf : Bool)
  /-- CHECKSUM. -/
  | byte (b : Byte)
  /-- VERIFY. -/
  | bool (b : Bool)
  /-- FIND_MAGIC. -/
  | offset (o : Option Nat)
  /-- TRY_DECODE. -/
  | verdict (v : Verdict)
  /-- DECODE_RESULT. -/
  | rpcResult (r : RpcResult)
  /-- DECODE_STATE. -/
  | deviceState (d : DeviceState)
  /-- DECODE_ERROR. -/
  | deviceError (d : DeviceError)
  /-- ENCODE_FRAME, ENCODE_COMMAND, ENCODE_WIFI. -/
  | bytes (bs : List Byte)
  deriving DecidableEq, Repr

/-- The error codes of R123 other than OK, each with the information it returns. -/
inductive ErrorInfo where
  /-- E_LEN: the offending length (R124). -/
  | len (n : Nat)
  /-- E_RPC_SHORT: the payload length (R125). -/
  | rpcShort (n : Nat)
  /-- E_OVF: the count of bytes dropped (R126). -/
  | ovf (dropped : Nat)
  /-- E_PAYLOAD: the payload length (R127). -/
  | payload (n : Nat)
  /-- E_NOTX (R128). -/
  | noTx
  /-- E_START: the start offset (R129). -/
  | start (q : Nat)
  /-- E_ILLEGAL: the op code (R130). -/
  | illegal (opcode : Byte)
  deriving DecidableEq, Repr

/-- The result record of one operation (R14, R69): OK with its value, or an error code with its information. -/
inductive Result where
  | ok (v : Value)
  | error (e : ErrorInfo)
  deriving DecidableEq, Repr

/-- The StreamBuffer as a memory: the byte at offset i is the i-th of the list, the oldest at offset 0 (R19, R31, R32). -/
abbrev Memory := List Byte

/-- The state of one instance.
`buf` and `ovf` are all the state the spec gives it (R17). `params` are the instance's parameters (R5 to R9), written by
no step (R23, R142; log entry 1). `pending` and `results` are the model's own: the two channels of the command port (R65),
since a step has no input and no output (log entries 3 and 6). -/
structure State where
  /-- The parameters of the instance (R5 to R9). -/
  params : Params
  /-- `BUF` (R19). -/
  buf : Memory
  /-- `OVF` (R20). -/
  ovf : Bool
  /-- The operations the host has issued and the block has not taken, oldest first (R65, R155). -/
  pending : List Command
  /-- The results returned so far, oldest first (R65, R155). No operation reads them. -/
  results : List Result
  deriving DecidableEq, Repr

/-- The reasons a step stops the machine. The spec has no trap and no hang (R131, R154): every error of R123 is a returned
code and a next state. -/
inductive Fault where
  /-- Raised by `issue` (so by `step`) when the data channel does not hold the operands that the op code's row of R66
  lists. The spec does not say what the block does then. Safe: the model stops (DESIGN CHOICE, log entry 7). -/
  | operandsNotAsListed (opcode : Byte)
  deriving DecidableEq, Repr

/-- The reasons a step gives an operation no meaning. -/
inductive Refusal where
  /-- Raised by `exec` for an operation that has no meaning yet (none). Safe: the model stops. -/
  | notModelled (mnemonic : String)
  deriving DecidableEq, Repr

/-- The outcome of an operation or a step. -/
abbrev Outcome := Host.Outcome State Fault Refusal

/-- The power-on state of an instance with parameters `p` (R27, R142): `BUF = []`, `OVF = 0`, and nothing issued or
returned yet. -/
def State.resetWith (p : Params) : State :=
  { params := p, buf := [], ovf := false, pending := [], results := [] }

/-- The power-on state of the instance the spec's vectors use (R27, R142; log entry 2). -/
def State.reset : State := State.resetWith Params.standard

end Sys2Proof.Machine
end

