-- ==== Sys2Proof/Machine/Ops.lean ====
section
/-! DEFINITION. The named operations every meaning is written over: byte sequences (00_scope.md R11, R12), the StreamBuffer
primitives (R13), and the two channels of the command port (30_encoding.md R65, 60_exceptions.md R123, R131). -/

namespace Sys2Proof.Machine

/-! ### Byte sequences (R11, R12) -/

/-- `s[a..b)`: the bytes at indices a, …, b - 1 (R11). -/
def slice (s : List Byte) (a b : Nat) : List Byte :=
  (s.drop a).take (b - a)

/-- `s[i]`, read only where `i < |s|` (R11). The 00 outside that range is never used by an operation (log entry 8). -/
def byteAt (s : List Byte) (i : Nat) : Byte :=
  s.getD i 0x00#8

/-- The sum of the bytes as natural numbers, with no wrap-around (R12, R73). -/
def byteSum (s : List Byte) : Nat :=
  (s.map BitVec.toNat).sum

/-- `sum8(s) = (Σ s[i]) mod 256` (R12). -/
def sum8 (s : List Byte) : Byte :=
  BitVec.ofNat 8 (byteSum s)

/-- `zext_8` of the length of a sequence, written only for a length of at most 255 (R12, R68). -/
def lengthByte (s : List Byte) : Byte :=
  BitVec.ofNat 8 s.length

/-! ### The StreamBuffer (R13, R19) -/

/-- `BufRead(i, n)`: `BUF[i..i+n)`, used only where `i + n ≤ |BUF|` (R13). -/
def bufRead (i n : Nat) (s : State) : List Byte :=
  slice s.buf i (i + n)

/-- `BufAppend(b)`: `BUF <- BUF ‖ [b]` (R13). -/
def bufAppend (b : Byte) (s : State) : State :=
  { s with buf := s.buf ++ [b] }

/-- `BufDrop(n)`: `BUF <- drop(n, BUF)` (R13). -/
def bufDrop (n : Nat) (s : State) : State :=
  { s with buf := s.buf.drop n }

/-- `BUF <- []` (R117). -/
def bufClear (s : State) : State :=
  { s with buf := [] }

/-- The byte at an offset of the buffer, none at an offset that does not exist (R31, R37). -/
def Memory.read (m : Memory) (i : Nat) : Option Byte :=
  m[i]?

/-- The well-formedness of the buffer: `|BUF| ≤ BUF_CAP` (R19, R30). As a list of bytes the buffer has no second form, so
nothing else need hold (log entry 10). -/
def Memory.wf (cap : Capacity) (m : Memory) : Bool :=
  match cap with
  | .unbounded => true
  | .bounded n => decide (m.length ≤ n)

/-- The buffer as (address, byte) pairs, addresses rising from 0 (R31). -/
def Memory.cells (m : Memory) : List Host.Cell :=
  m.zipIdx.map fun c => (c.2, c.1)

/-! ### The command port (R65) -/

/-- The oldest command the host has issued, and the state without it (R39, R65). -/
def takeCommand (s : State) : Option (Command × State) :=
  match s.pending with
  | [] => none
  | c :: rest => some (c, { s with pending := rest })

/-- The host issues one more command, after those already issued (R39, R65). -/
def hostIssues (c : Command) (s : State) : State :=
  { s with pending := s.pending ++ [c] }

/-- Put a command where the next step takes it. -/
def placeNext (c : Command) (s : State) : State :=
  { s with pending := c :: s.pending }

/-- The host receives one more result record (R65, R69). -/
def deliver (r : Result) (s : State) : State :=
  { s with results := s.results ++ [r] }

/-- `return OK(v)` (R14). -/
def ret (v : Value) (s : State) : Outcome :=
  .next (deliver (.ok v) s)

/-- `raise E(info)`: the block's only exception entry (R14, R131). It saves nothing, changes no mode and transfers control
nowhere: the operation ends and returns its code. There is no return from it (R132). -/
def raise (e : ErrorInfo) (s : State) : Outcome :=
  .next (deliver (.error e) s)

/-- The number of a result code (R123). -/
def Result.code : Result → Byte
  | .ok _ => 0x00#8
  | .error (.len _) => 0x01#8
  | .error (.rpcShort _) => 0x02#8
  | .error (.ovf _) => 0x03#8
  | .error (.payload _) => 0x04#8
  | .error .noTx => 0x05#8
  | .error (.start _) => 0x06#8
  | .error (.illegal _) => 0x07#8

/-- The frames a result carries: of a STEP that emits, of a DRAIN, of a TRY_DECODE that is Valid (R69). -/
def Result.frames : Result → List Frame
  | .ok (.step (.emit f)) => [f]
  | .ok (.drain fs _) => fs
  | .ok (.verdict (.valid f _)) => [f]
  | _ => []

end Sys2Proof.Machine
end

