-- ==== Sys2Proof/Machine/Checksum.lean ====
section
/-! DEFINITION. The checksum unit (40_checksum.md): CHECKSUM and VERIFY. -/

namespace Sys2Proof.Machine

/-- CHECKSUM: the sum of the bytes modulo 256 (R73). No state written, no errors. -/
def execChecksum (bs : List Byte) (s : State) : Outcome :=
  ret (.byte (sum8 bs)) s

/-- VERIFY: whether the sum of the bytes is the expected byte (R74). A mismatch is the result false, not an error. -/
def execVerify (bs : List Byte) (c : Byte) (s : State) : Outcome :=
  ret (.bool (sum8 bs == c)) s

end Sys2Proof.Machine
end

