-- ==== Sys2Proof/Machine/Flags.lean ====
section
/-! DEFINITION. The one flag of the block, `OVF` (10_state.md R20), and the test it depends on (43_stream_demux.md R104,
R105). The block has no condition codes or other flags (R21). -/

namespace Sys2Proof.Machine

/-- `|BUF| < BUF_CAP`, always true when `BUF_CAP = ∞` (R104). -/
def hasRoom (s : State) : Bool :=
  match s.params.bufCap with
  | .unbounded => true
  | .bounded n => decide (s.buf.length < n)

/-- `OVF <- 1` (R105). -/
def setOvf (s : State) : State :=
  { s with ovf := true }

/-- `OVF <- 0` (R117). -/
def clearOvf (s : State) : State :=
  { s with ovf := false }

end Sys2Proof.Machine
end

