-- ==== Sys2Proof/Machine/Control.lean ====
section
/-! DEFINITION. The control operations (44_control.md): RESET and STATUS. -/

namespace Sys2Proof.Machine

/-- RESET: `BUF <- []`, `OVF <- 0` (R117). The parameters do not change (R142), nor do the channels of the port. -/
def execReset (s : State) : Outcome :=
  ret .none (clearOvf (bufClear s))

/-- STATUS: the pair of |BUF| and OVF (R118). -/
def execStatus (s : State) : Outcome :=
  ret (.status s.buf.length s.ovf) s

end Sys2Proof.Machine
end

