-- ==== Sys2Proof/Machine/Operands.lean ====
section
/-! DEFINITION. What the operations read from their operands: the wire constants (30_encoding.md R47, R49, R51), the named
bytes of the wire (R56), the candidate fields (41_frame_codec.md R77), the precondition of TRY_DECODE (R78), and the operand
checks shared by the TX builder (60_exceptions.md R124, R128, R133). Operands are taken by value and whole (R68). -/

namespace Sys2Proof.Machine

/-- The magic tag: the ASCII codes of `IMPROV` (R47). -/
def magic : List Byte :=
  [0x49#8, 0x4D#8, 0x50#8, 0x52#8, 0x4F#8, 0x56#8]

/-- The only accepted version byte (R49). -/
def wireVersion : Byte := 0x01#8

/-- The four named packet types (R56). The frame layer does not use the names (R50, R57). -/
inductive PacketType where
  | currentState
  | errorState
  | rpcCommand
  | rpcResult
  deriving DecidableEq, Repr

/-- The type byte of a packet type (R56). -/
def PacketType.byte : PacketType → Byte
  | .currentState => 0x01#8
  | .errorState => 0x02#8
  | .rpcCommand => 0x03#8
  | .rpcResult => 0x04#8

/-- The packet type a type byte names; every other byte is legal and has no name (R56, R57). -/
def packetTypeOf (b : Byte) : Option PacketType :=
  [PacketType.currentState, .errorState, .rpcCommand, .rpcResult].find? fun t => t.byte == b

/-- The version byte of the candidate at `q`, needs `|s| - q ≥ 7` (R77). -/
def candidateVersion (s : List Byte) (q : Nat) : Byte := byteAt s (q + 6)

/-- The type byte of the candidate at `q`, needs `|s| - q ≥ 8` (R77). -/
def candidateType (s : List Byte) (q : Nat) : Byte := byteAt s (q + 7)

/-- The length byte of the candidate at `q`, needs `|s| - q ≥ 9` (R77). -/
def candidateLength (s : List Byte) (q : Nat) : Byte := byteAt s (q + 8)

/-- The payload of the candidate at `q`, needs `|s| - q ≥ 10 + N` (R52, R77). -/
def candidatePayload (s : List Byte) (q : Nat) : List Byte :=
  slice s (q + 9) (q + 9 + (candidateLength s q).toNat)

/-- The bytes the checksum covers: version, type, length and payload (R55, R82). -/
def candidateCovered (s : List Byte) (q : Nat) : List Byte :=
  slice s (q + 6) (q + 9 + (candidateLength s q).toNat)

/-- The checksum byte of the candidate at `q`, needs `|s| - q ≥ 10 + N` (R77). -/
def candidateChecksum (s : List Byte) (q : Nat) : Byte :=
  byteAt s (q + 9 + (candidateLength s q).toNat)

/-- The magic tag begins at `q`, or a prefix of it beginning at `q` ends `s` (R78). -/
def startOk (s : List Byte) (q : Nat) : Bool :=
  decide (q ≤ s.length) && slice s q (min (q + 6) s.length) == magic.take (min 6 (s.length - q))

/-- Go on if the TX builder is present, else E_NOTX (R128). -/
def needTxBuilder (s : State) (k : Outcome) : Outcome :=
  if s.params.hasTxBuilder then k else raise .noTx s

/-- Go on if the length of `bs` fits its length byte, else E_LEN with that length, nothing produced (R124). -/
def needFits (bs : List Byte) (s : State) (k : Outcome) : Outcome :=
  if bs.length > 255 then raise (.len bs.length) s else k

/-- Go on with the one byte of a payload, else E_PAYLOAD with its length (R100, R127). -/
def needOneByte (p : List Byte) (s : State) (k : Byte → Outcome) : Outcome :=
  match p with
  | [b] => k b
  | _ => raise (.payload p.length) s

end Sys2Proof.Machine
end

