-- ==== Sys2Proof/Machine/FrameCodec.lean ====
section
/-! DEFINITION. The frame codec (41_frame_codec.md): the verdict function that TRY_DECODE and STEP share, TRY_DECODE, and
ENCODE_FRAME. -/

namespace Sys2Proof.Machine

/-- The frame record of a full candidate at `q` (R24, R79). -/
def candidateFrame (s : List Byte) (q : Nat) : Frame :=
  { version := candidateVersion s q
    ftype := candidateType s q
    length := candidateLength s q
    payload := candidatePayload s q
    checksum := candidateChecksum s q }

/-- The verdict on the candidate at `q`, its precondition R78 apart (R79 to R84). The type byte is not tested (R83). -/
def tryDecode (v : VersionCheckAt) (s : List Byte) (q : Nat) : Verdict :=
  if s.length - q < 9 then .needMoreData
  else if v = .atPrefix ∧ candidateVersion s q ≠ wireVersion then .invalid
  else if s.length - q < 10 + (candidateLength s q).toNat then .needMoreData
  else if candidateVersion s q ≠ wireVersion then .invalid
  else if sum8 (candidateCovered s q) ≠ candidateChecksum s q then .invalid
  else .valid (candidateFrame s q) (10 + (candidateLength s q).toNat)

/-- TRY_DECODE: E_START where no tag begins (R78, R129), else the verdict (R79). No state written. -/
def execTryDecode (bs : List Byte) (start : Nat) (s : State) : Outcome :=
  if startOk bs start then ret (.verdict (tryDecode s.params.versionCheckAt bs start)) s
  else raise (.start start) s

/-- What the checksum of a built frame covers: `[0x01, t, |p|] ‖ p` (R86). -/
def frameBody (t : Byte) (p : List Byte) : List Byte :=
  [wireVersion, t, lengthByte p] ++ p

/-- The bytes of a built frame: magic, body and checksum, `10 + |p|` of them (R46, R86). -/
def frameBytes (t : Byte) (p : List Byte) : List Byte :=
  magic ++ frameBody t p ++ [sum8 (frameBody t p)]

/-- The bytes a frame record was decoded from: its fields in wire order after the magic tag (R24, R46). -/
def Frame.wire (f : Frame) : List Byte :=
  magic ++ [f.version, f.ftype, f.length] ++ f.payload ++ [f.checksum]

/-- ENCODE_FRAME: build one frame (R86). Nothing is fed to BUF. -/
def execEncodeFrame (t : Byte) (p : List Byte) (s : State) : Outcome :=
  needTxBuilder s (needFits p s (ret (.bytes (frameBytes t p)) s))

end Sys2Proof.Machine
end

