-- ==== Sys2Proof/Machine/Demux.lean ====
section
/-! DEFINITION. The stream demultiplexer (43_stream_demux.md): FEED, FIND_MAGIC, STEP and DRAIN. -/

namespace Sys2Proof.Machine

/-- Feed bytes in index order, counting those dropped at a full buffer; a drop sets OVF (R104, R105). -/
def feedBytes : List Byte → State → Nat → State × Nat
  | [], s, dropped => (s, dropped)
  | b :: bs, s, dropped =>
    if hasRoom s then feedBytes bs (bufAppend b s) dropped
    else feedBytes bs (setOvf s) (dropped + 1)

/-- FEED: append bytes; E_OVF with the count if any was dropped (R104, R126). FEED never scans (R103). -/
def execFeed (bs : List Byte) (s : State) : Outcome :=
  match feedBytes bs s 0 with
  | (s', 0) => ret .none s'
  | (s', dropped + 1) => raise (.ovf (dropped + 1)) s'

/-- The least offset at which a whole magic tag stands (R106). -/
def findMagic : List Byte → Option Nat
  | [] => none
  | b :: bs => if (b :: bs).take 6 = magic then some 0 else (findMagic bs).map (· + 1)

/-- FIND_MAGIC: the first magic tag of the operand (R106). -/
def execFindMagic (bs : List Byte) (s : State) : Outcome :=
  ret (.offset (findMagic bs)) s

/-- One iteration of the scan of a buffer: its result, and how many bytes leave the front (R107 to R110). The whole buffer
is searched from offset 0 (R107); a Stop removes nothing, a Discard one byte (R109), an Emit the bytes before the tag and
the frame (R110). -/
def scan (v : VersionCheckAt) (buf : List Byte) : StepResult × Nat :=
  match findMagic buf with
  | none => (.stop .noMagic, 0)
  | some p =>
    match tryDecode v buf p with
    | .needMoreData => (.stop .needMoreData, 0)
    | .invalid => (.discard, 1)
    | .valid f n => (.emit f, p + n)

/-- STEP: one iteration of the drain scan (R108). OVF is neither read nor written. -/
def execStep (s : State) : Outcome :=
  let r := scan s.params.versionCheckAt s.buf
  ret (.step r.1) (bufDrop r.2 s)

/-- What a drain gives: the frames in order, the stop reason, and the bytes left in the buffer (R111). -/
structure Drained where
  frames : List Frame
  reason : StopReason
  rest : List Byte
  deriving DecidableEq, Repr

/-- Put a frame before those of the rest of a drain (R111, R112). -/
def Drained.withFrame (f : Frame) (d : Drained) : Drained :=
  { d with frames := f :: d.frames }

/-- The loop of DRAIN (R111) with a bound on the iterations that do not stop. `drainBuf` gives it `|BUF|`, and every such
iteration removes at least one byte (R113), so the bound is 0 only where the buffer is empty, and there an iteration stops
with NoMagic (log entry 9). -/
def drainBounded (v : VersionCheckAt) : Nat → List Byte → Drained
  | 0, buf => { frames := [], reason := .noMagic, rest := buf }
  | n + 1, buf =>
    match scan v buf with
    | (.stop r, _) => { frames := [], reason := r, rest := buf }
    | (.discard, k) => drainBounded v n (buf.drop k)
    | (.emit f, k) => (drainBounded v n (buf.drop k)).withFrame f

/-- The loop of DRAIN from a buffer (R111). -/
def drainBuf (v : VersionCheckAt) (buf : List Byte) : Drained :=
  drainBounded v buf.length buf

/-- DRAIN: extract every frame that can be decoded now (R111). -/
def execDrain (s : State) : Outcome :=
  let d := drainBuf s.params.versionCheckAt s.buf
  ret (.drain d.frames d.reason) { s with buf := d.rest }

end Sys2Proof.Machine
end

