-- ==== Sys2Proof/Machine/Rpc.lean ====
section
/-! DEFINITION. The RPC codec and the payload interpreters (42_rpc_codec.md): ENCODE_COMMAND, ENCODE_WIFI, DECODE_RESULT,
DECODE_STATE and DECODE_ERROR. None writes state; none looks at a frame's type (R101). -/

namespace Sys2Proof.Machine

/-- ENCODE_COMMAND: `[c, |a|] ‖ a` (R58, R89). The command byte is not checked against any table. -/
def execEncodeCommand (c : Byte) (a : List Byte) (s : State) : Outcome :=
  needTxBuilder s (needFits a s (ret (.bytes ([c, lengthByte a] ++ a)) s))

/-- ENCODE_WIFI: `[|ssid|] ‖ ssid ‖ [|pass|] ‖ pass` (R59, R91). The SSID is checked first (R133). -/
def execEncodeWifi (ssid pass : List Byte) (s : State) : Outcome :=
  needTxBuilder s (needFits ssid s (needFits pass s
    (ret (.bytes ([lengthByte ssid] ++ ssid ++ [lengthByte pass] ++ pass)) s)))

/-- The value walk (R94) with a bound on the number of values still to read. `valueWalk` gives it `|p| - i`, and every
value read advances i by at least 1, so the bound is 0 only where `i ≥ |p|` and the walk has ended (log entry 9). -/
def valueWalkBounded (p : List Byte) : Nat → Nat → List (List Byte)
  | 0, _ => []
  | n + 1, i =>
    if i ≥ p.length then []
    else slice p (i + 1) (min (i + 1 + (byteAt p i).toNat) p.length)
      :: valueWalkBounded p n (i + 1 + (byteAt p i).toNat)

/-- `walk(p, i)` (R94): read a length byte, then up to that many bytes, until the payload ends (R96). -/
def valueWalk (p : List Byte) (i : Nat) : List (List Byte) :=
  valueWalkBounded p (p.length - i) i

/-- DECODE_RESULT: the command byte and the values from offset 2 (R95). The declared length `p[1]` is never used (R97). -/
def execDecodeResult (p : List Byte) (s : State) : Outcome :=
  if p.length < 2 then raise (.rpcShort p.length) s
  else ret (.rpcResult { command := byteAt p 0, values := valueWalk p 2 }) s

/-- The DeviceState of a state byte under a STATE_MAP (R62, R98). -/
def deviceStateOf (m : StateMap) (b : Byte) : DeviceState :=
  if b = 0x03#8 then .provisioning
  else if b = 0x04#8 then .provisioned
  else if b = 0x01#8 then (match m with | .listed => .awaitingAuthorization | .swapped => .authorized)
  else if b = 0x02#8 then (match m with | .listed => .authorized | .swapped => .awaitingAuthorization)
  else .unrecognizedState b

/-- DECODE_STATE: E_PAYLOAD unless the payload is one byte (R100), else its meaning (R98). -/
def execDecodeState (p : List Byte) (s : State) : Outcome :=
  needOneByte p s fun b => ret (.deviceState (deviceStateOf s.params.stateMap b)) s

/-- The DeviceError of an error byte (R63, R99). -/
def deviceErrorOf (b : Byte) : DeviceError :=
  if b = 0x00#8 then .none
  else if b = 0x01#8 then .invalidRpc
  else if b = 0x02#8 then .unknownRpc
  else if b = 0x03#8 then .unableToConnect
  else if b = 0x04#8 then .notAuthorized
  else if b = 0xFF#8 then .unknown
  else .unrecognizedError b

/-- DECODE_ERROR: E_PAYLOAD unless the payload is one byte (R100), else its meaning (R99). -/
def execDecodeError (p : List Byte) (s : State) : Outcome :=
  needOneByte p s fun b => ret (.deviceError (deviceErrorOf b)) s

end Sys2Proof.Machine
end

