-- ==== Sys2Proof/Machine/Dispatch.lean ====
section
/-! DEFINITION. What each operation does: one arm per constructor of Instr (30_encoding.md R66). -/

namespace Sys2Proof.Machine

def exec (i : Instr) (s : State) : Host.Outcome State Fault Refusal :=
  match i with
  | .feed bs => Sys2Proof.Machine.execFeed bs s
  | .step => Sys2Proof.Machine.execStep s
  | .drain => Sys2Proof.Machine.execDrain s
  | .reset => Sys2Proof.Machine.execReset s
  | .status => Sys2Proof.Machine.execStatus s
  | .checksum bs => Sys2Proof.Machine.execChecksum bs s
  | .verify bs c => Sys2Proof.Machine.execVerify bs c s
  | .findMagic bs => Sys2Proof.Machine.execFindMagic bs s
  | .tryDecode bs start => Sys2Proof.Machine.execTryDecode bs start s
  | .decodeResult p => Sys2Proof.Machine.execDecodeResult p s
  | .decodeState p => Sys2Proof.Machine.execDecodeState p s
  | .decodeError p => Sys2Proof.Machine.execDecodeError p s
  | .encodeFrame t p => Sys2Proof.Machine.execEncodeFrame t p s
  | .encodeCommand c a => Sys2Proof.Machine.execEncodeCommand c a s
  | .encodeWifi ssid pass => Sys2Proof.Machine.execEncodeWifi ssid pass s

end Sys2Proof.Machine
end

