-- ==== Sys2Proof/Machine/Fetch.lean ====
section
/-! DEFINITION. Taking the next command of the port and running it (30_encoding.md R65, R67, 60_exceptions.md R130). -/

namespace Sys2Proof.Machine

/-- Run one command: the operation it decodes to, or E_ILLEGAL for an unassigned op code, whose operands are not read and
which writes no state (R67, R130). Operands that are not those the op code lists stop the model (log entry 7). -/
def issue (c : Command) (s : State) : Outcome :=
  match decode c with
  | .ok i => exec i s
  | .error (.illegalOpcode b) => raise (.illegal b) s
  | .error (.operandsNotAsListed b) => .fault (.operandsNotAsListed b)

/-- Take the oldest command issued and run it; with none issued the block does nothing and its state is held unchanged
(R4, R141; DEDUCED, log entry 12). -/
def serveNext (s : State) : Outcome :=
  match takeCommand s with
  | none => .next s
  | some (c, s') => issue c s'

end Sys2Proof.Machine
end

