-- ==== Sys2Proof/Machine/Step.lean ====
section
/-! DEFINITION. One step of the machine: the block serves the next command of its port (00_scope.md R4). -/

namespace Sys2Proof.Machine

/-- One step: the oldest command issued is taken and run (R4, R39). A step is one operation and no span of time: State holds
no clock, no cycle count and no deadline, and none is an argument (70_reset_and_hazards.md R153; log entry 16). -/
def step (s : State) : Host.Outcome State Fault Refusal :=
  serveNext s

/-- `s` with the command whose op code is the low byte of the `nbits` bits `w`, its operands zeros, issued before every
command already on the port, so that the next step takes it (log entries 3 and 5). -/
def State.withFetchWord (s : State) (nbits w : Nat) : State :=
  placeNext (commandOfTableWord nbits w) s

end Sys2Proof.Machine
end

