-- ==== Sys2Proof/Machine/Run.lean ====
section
/-! DEFINITION. Runs: operations in the order the host issues them (20_memory.md R39), and what a run is observed by
(70_reset_and_hazards.md R155). -/

namespace Sys2Proof.Machine

/-- Go on with the next state of an outcome; a stop stays a stop. -/
def onNext (o : Outcome) (k : State → Outcome) : Outcome :=
  match o with
  | .next s => k s
  | .fault f => .fault f
  | .refused r => .refused r

/-- Operations one after the other, each seeing every effect of the earlier ones (R39). -/
def runOps : List Instr → State → Outcome
  | [], s => .next s
  | i :: is, s => onNext (exec i s) (runOps is)

/-- `n` steps of the machine. -/
def stepTimes : Nat → State → Outcome
  | 0, s => .next s
  | n + 1, s => onNext (step s) (stepTimes n)

/-- What a run is observed by: the results returned, in order, and the final `(BUF, OVF)` (R155). -/
structure Observation where
  results : List Result
  buf : Memory
  ovf : Bool
  deriving DecidableEq, Repr

/-- The observation of a state (R155). -/
def State.observation (s : State) : Observation :=
  { results := s.results, buf := s.buf, ovf := s.ovf }

/-- A run: a finite list of commands issued by the host to an instance in its reset state, served to the end (R155). -/
def runFromReset (p : Params) (cs : List Command) : Outcome :=
  stepTimes cs.length { State.resetWith p with pending := cs }

end Sys2Proof.Machine
end

