-- ==== Sys2Proof/Machine/Pseudo.lean ====
section
/-! DEFINITION. The pseudo-operations, each an abbreviation that expands to real operations (30_encoding.md R71). They are
the host's: an operation whose operand is the bytes an earlier one returned is issued only if that one returned OK. -/

namespace Sys2Proof.Machine

/-- The bytes the last operation returned, none if it returned anything else. -/
def lastBytes (s : State) : Option (List Byte) :=
  match s.results.getLast? with
  | some (.ok (.bytes bs)) => some bs
  | _ => none

/-- Run an operation that returns bytes and hand them to the next; if it returned an error nothing more is issued
(R71 (a); for (b) and (c) DEDUCED from R90 and R92, log entry 13). -/
def thenWithBytes (o : Outcome) (k : List Byte → State → Outcome) : Outcome :=
  onNext o fun s =>
    match lastBytes s with
    | some bs => k bs s
    | none => .next s

/-- `FEEDFRAME t, p`: ENCODE_FRAME, then FEED of the bytes it returned (R71 (a)). -/
def feedFrame (t : Byte) (p : List Byte) (s : State) : Outcome :=
  thenWithBytes (exec (.encodeFrame t p) s) fun f => exec (.feed f)

/-- `SENDCMD c, a`: ENCODE_COMMAND, then ENCODE_FRAME 03 of its result (R71 (b)). -/
def sendCmd (c : Byte) (a : List Byte) (s : State) : Outcome :=
  thenWithBytes (exec (.encodeCommand c a) s) fun p => exec (.encodeFrame PacketType.rpcCommand.byte p)

/-- `SENDWIFI ssid, pass`: ENCODE_WIFI, then SENDCMD 01 of its result (R71 (c)). -/
def sendWifi (ssid pass : List Byte) (s : State) : Outcome :=
  thenWithBytes (exec (.encodeWifi ssid pass) s) fun a => sendCmd 0x01#8 a

/-- STEP at most `n` times, until one returns Stop. -/
def stepUntilStop : Nat → State → Outcome
  | 0, s => .next s
  | n + 1, s =>
    onNext (exec .step s) fun s' =>
      match s'.results.getLast? with
      | some (.ok (.step (.stop _))) => .next s'
      | _ => stepUntilStop n s'

/-- `DRAINSTEPS`: STEP until a STEP returns Stop (R71 (d)). Every STEP that does not stop removes a byte, so the
`|BUF| + 1` STEPs of the bound always suffice (R113; log entry 9). -/
def drainSteps (s : State) : Outcome :=
  stepUntilStop (s.buf.length + 1) s

/-- The pseudo-operations with their operands (R71). -/
inductive PseudoOp where
  | feedFrame (t : Byte) (p : List Byte)
  | sendCmd (c : Byte) (a : List Byte)
  | sendWifi (ssid : List Byte) (pass : List Byte)
  | drainSteps
  deriving DecidableEq, Repr

/-- What a pseudo-operation does (R71). -/
def runPseudo : PseudoOp → State → Outcome
  | .feedFrame t p, s => feedFrame t p s
  | .sendCmd c a, s => sendCmd c a s
  | .sendWifi ssid pass, s => sendWifi ssid pass s
  | .drainSteps, s => drainSteps s

end Sys2Proof.Machine
end

