-- ==== Sys2Proof/Safety.lean ====
section
/-! DEFINITION. What claims about the block are stated in: the invariant of an instance (10_state.md R19, R20, R24, R30),
the well-formed frame (R24), the operation that ends
(70_reset_and_hazards.md R153), and the state that has lost bytes (60_exceptions.md R126). -/

namespace Sys2Proof.Machine

/-- A whole magic tag stands at offset `p` of `s` (R47, R106). The bytes are written out here, so that a claim does not rest
on the model's own constant. -/
def tagAt (s : List Byte) (p : Nat) : Prop :=
  (s.drop p).take 6 = [0x49#8, 0x4D#8, 0x50#8, 0x52#8, 0x4F#8, 0x56#8]

/-- No whole magic tag stands anywhere in `s`. -/
def tagFree (s : List Byte) : Prop :=
  ∀ p, ¬ tagAt s p

/-- The first whole magic tag of `s` stands at `p` (R106). -/
def firstTag (s : List Byte) (p : Nat) : Prop :=
  tagAt s p ∧ ∀ j, j < p → ¬ tagAt s j

/-- The precondition of TRY_DECODE at `q` (R78): the bytes from `q` agree with the magic tag as far as both go. -/
def tagBegins (s : List Byte) (q : Nat) : Prop :=
  q ≤ s.length ∧ ∀ j, j < 6 → q + j < s.length →
    s[q + j]? = [0x49#8, 0x4D#8, 0x50#8, 0x52#8, 0x4F#8, 0x56#8][j]?

/-- The bytes of a frame of type `t` and payload `p` as the wire layout lays them out (R46, R55): magic, version 01, type,
length, payload, checksum. Written out here, so that a claim does not rest on the model's encoder. -/
def builtFrame (t : Byte) (p : List Byte) : List Byte :=
  [0x49#8, 0x4D#8, 0x50#8, 0x52#8, 0x4F#8, 0x56#8] ++ [0x01#8, t, BitVec.ofNat 8 p.length] ++ p
    ++ [BitVec.ofNat 8 (1 + t.toNat + p.length + (p.map BitVec.toNat).sum)]

/-- The record of the frame `builtFrame t p` (R24). -/
def builtRecord (t : Byte) (p : List Byte) : Frame :=
  { version := 0x01#8
    ftype := t
    length := BitVec.ofNat 8 p.length
    payload := p
    checksum := BitVec.ofNat 8 (1 + t.toNat + p.length + (p.map BitVec.toNat).sum) }

/-- How many of the bytes `bs` a FEED keeps: all of them when `BUF_CAP = ∞`, else as many as fit (R104, R105). -/
def feedKeeps (bs : List Byte) (s : State) : Nat :=
  match s.params.bufCap with
  | .unbounded => bs.length
  | .bounded n => min bs.length (n - s.buf.length)

/-- A FEED of `bs` loses no byte (R104). -/
def feedFits (bs : List Byte) (s : State) : Prop :=
  ∀ n, s.params.bufCap = .bounded n → s.buf.length + bs.length ≤ n

/-- The operations that read only their operands (R18, R34): all but FEED, STEP, DRAIN, RESET and STATUS. -/
def isPureOperation : Instr → Bool
  | .feed _ => false
  | .step => false
  | .drain => false
  | .reset => false
  | .status => false
  | .checksum _ => true
  | .verify _ _ => true
  | .findMagic _ => true
  | .tryDecode _ _ => true
  | .decodeResult _ => true
  | .decodeState _ => true
  | .decodeError _ => true
  | .encodeFrame _ _ => true
  | .encodeCommand _ _ => true
  | .encodeWifi _ _ => true

/-- Each value with its length byte before it (R60). -/
def prefixedValues (vs : List (List Byte)) : List Byte :=
  vs.flatMap fun v => BitVec.ofNat 8 v.length :: v

/-- The invariants of the frame record (R24): version 01, `|payload| = length`, and the checksum the sum modulo 256 of
version, type, length and payload. -/
def Frame.wf (f : Frame) : Prop :=
  f.version = 0x01#8 ∧ f.payload.length = f.length.toNat ∧
    f.checksum.toNat = ((f.version :: f.ftype :: f.length :: f.payload).map BitVec.toNat).sum % 256

/-- The operation ends, with a next state: all that the spec lets a claim rely on where time is concerned, since the block is
untimed (70_reset_and_hazards.md R153, R154). Laws/Exec.lean proves it of every operation in every state (`exec_ends`). -/
def operationEnds (i : Instr) (s : State) : Prop :=
  ∃ t, exec i s = .next t

/-- `OVF = 1`: at least one fed byte was lost since the last reset, so the stream the parser saw is not the stream the host
fed; claims about decoded frames take its negation as a premise (R20, R126; DEDUCED, log entry 17). -/
def State.lossy (s : State) : Bool := s.ovf

/-- `|BUF| ≤ BUF_CAP` (R19, R30). -/
def State.bufWithinCap (s : State) : Prop :=
  ∀ n, s.params.bufCap = .bounded n → s.buf.length ≤ n

/-- `OVF` is set only where `BUF_CAP` is finite, and only if some FEED returned E_OVF (R20, R105). -/
def State.ovfExplained (s : State) : Prop :=
  s.ovf = true → (∃ n, s.params.bufCap = .bounded n) ∧ ∃ d, 0 < d ∧ Result.error (.ovf d) ∈ s.results

/-- Every frame the block has returned satisfies R24. -/
def State.framesWf (s : State) : Prop :=
  ∀ r ∈ s.results, ∀ f ∈ r.frames, f.wf

/-- The invariant of an instance: every step keeps it, and the reset state of every instance has it. -/
def State.Inv (s : State) : Prop :=
  s.bufWithinCap ∧ s.ovfExplained ∧ s.framesWf

end Sys2Proof.Machine
end

