-- ==== Sys2Proof/Certificates/Slice0/Obligations.lean ====
section
/-! DEFINITION. The statements for the provers. Each docstring names the rule of spec/ it states, or says what it rests on.
A next state is written out as an update of the state before, so that every field not named is unchanged. -/

open Sys2Proof Sys2Proof.Machine

/-! ### Reset, control, the command port -/

/-- R142: power-on puts any instance in `BUF = []`, `OVF = 0`, its parameters those it was built with, and RESET reaches the
same buffer and flag from every state and changes no parameter. -/
def Obligations.ResetStateOfEveryInstance : Prop :=
  ∀ p : Params,
    (State.resetWith p).buf = [] ∧ (State.resetWith p).ovf = false ∧ (State.resetWith p).params = p ∧
    ∀ s : State, s.params = p → ∃ t, exec .reset s = .next t ∧
      t.buf = (State.resetWith p).buf ∧ t.ovf = (State.resetWith p).ovf ∧ t.params = p

/-- R117: the op code 04 is RESET; it empties BUF, clears OVF, returns OK with no value, and writes nothing else; on a block
already in the reset state it changes neither. -/
def Obligations.ResetEmptiesBufferAndClearsFlag : Prop :=
  decode { opcode := 0x04#8, operands := [] } = .ok .reset ∧
  (∀ s : State, exec .reset s =
    .next { s with buf := [], ovf := false, results := s.results ++ [.ok .none] }) ∧
  ∀ s t : State, s.buf = [] → s.ovf = false → exec .reset s = .next t → t.buf = s.buf ∧ t.ovf = s.ovf

/-- R118: the op code 05 is STATUS; it returns |BUF| and OVF and writes no state; after reset it returns (0, 0);
and |BUF| = BUF_CAP means that the next byte fed is dropped. -/
def Obligations.StatusReturnsLengthAndFlag : Prop :=
  decode { opcode := 0x05#8, operands := [] } = .ok .status ∧
  (∀ s : State, exec .status s =
    .next { s with results := s.results ++ [.ok (.status s.buf.length s.ovf)] }) ∧
  (∀ p : Params, exec .status (State.resetWith p) =
    .next { State.resetWith p with results := [.ok (.status 0 false)] }) ∧
  ∀ (s : State) (b : Byte), s.params.bufCap = .bounded s.buf.length →
    exec (.feed [b]) s = .next { s with ovf := true, results := s.results ++ [.error (.ovf 1)] }

/-- A step takes the oldest command issued, and runs the operation it decodes to on the state without it; with none issued
the state is held unchanged (the model's queue of issued commands, log entries 3 and 12). -/
def Obligations.StepRunsTheDecodedOperation : Prop :=
  (∀ (s : State) (c : Command) (rest : List Command) (i : Instr),
    s.pending = c :: rest → decode c = .ok i → step s = exec i { s with pending := rest }) ∧
  ∀ s : State, s.pending = [] → step s = .next s

/-- R67, R130: an op code outside the map (00, 06 to 0F, 14 to 1F, 23 to 2F, 33 to FF) returns E_ILLEGAL with the op code,
whatever the operands, and writes no state; the decoder rejects it by name. -/
def Obligations.UnassignedOpcodeReturnsEIllegal : Prop :=
  ∀ (s : State) (c : Command) (rest : List Command), s.pending = c :: rest →
    (c.opcode.toNat = 0x00 ∨ (0x06 ≤ c.opcode.toNat ∧ c.opcode.toNat ≤ 0x0F) ∨
      (0x14 ≤ c.opcode.toNat ∧ c.opcode.toNat ≤ 0x1F) ∨ (0x23 ≤ c.opcode.toNat ∧ c.opcode.toNat ≤ 0x2F) ∨
      (0x33 ≤ c.opcode.toNat ∧ c.opcode.toNat ≤ 0xFF)) →
    decode c = .error (.illegalOpcode c.opcode) ∧
    step s = .next { s with pending := rest, results := s.results ++ [.error (.illegal c.opcode)] } ∧
    (Result.error (.illegal c.opcode)).code = 0x07#8

/-- R66: the op-code map, row by row, each with the operands the row lists. -/
def Obligations.OpcodeWordsDecodeAsTheMapSays : Prop :=
  ∀ (s p a ssid pass : List Byte) (c t : Byte) (start : Nat),
    decode { opcode := 0x01#8, operands := [.bytes s] } = .ok (.feed s) ∧
    decode { opcode := 0x02#8, operands := [] } = .ok .step ∧
    decode { opcode := 0x03#8, operands := [] } = .ok .drain ∧
    decode { opcode := 0x04#8, operands := [] } = .ok .reset ∧
    decode { opcode := 0x05#8, operands := [] } = .ok .status ∧
    decode { opcode := 0x10#8, operands := [.bytes s] } = .ok (.checksum s) ∧
    decode { opcode := 0x11#8, operands := [.bytes s, .u8 c] } = .ok (.verify s c) ∧
    decode { opcode := 0x12#8, operands := [.bytes s] } = .ok (.findMagic s) ∧
    decode { opcode := 0x13#8, operands := [.bytes s, .nat start] } = .ok (.tryDecode s start) ∧
    decode { opcode := 0x20#8, operands := [.bytes p] } = .ok (.decodeResult p) ∧
    decode { opcode := 0x21#8, operands := [.bytes p] } = .ok (.decodeState p) ∧
    decode { opcode := 0x22#8, operands := [.bytes p] } = .ok (.decodeError p) ∧
    decode { opcode := 0x30#8, operands := [.u8 t, .bytes p] } = .ok (.encodeFrame t p) ∧
    decode { opcode := 0x31#8, operands := [.u8 c, .bytes a] } = .ok (.encodeCommand c a) ∧
    decode { opcode := 0x32#8, operands := [.bytes ssid, .bytes pass] } = .ok (.encodeWifi ssid pass)

/-- Decoding the command of an operation gives the operation back, with every operand at every value; and a command that
decodes to an operation is that operation's command, so no two commands mean the same (30_encoding.md section 5). -/
def Obligations.DecodeAndEncodeAgree : Prop :=
  (∀ i : Instr, decode (encode i) = .ok i) ∧
  ∀ (c : Command) (i : Instr), decode c = .ok i → encode i = c

/-- A step never refuses, and it faults exactly where the command to be taken has an assigned op code and operands that are
not those its row lists (the model's choice where the spec is silent, log entry 7). -/
def Obligations.StepStopsOnlyOnOperandsNotListed : Prop :=
  ∀ s : State, (∀ r, step s ≠ .refused r) ∧
    ∀ f, step s = .fault f ↔ ∃ c rest, s.pending = c :: rest ∧ c.opcodeAssigned = true ∧
      c.operandsAsListed = false ∧ f = .operandsNotAsListed c.opcode

/-! ### Whole-machine rules -/

/-- Every operation, in every state, completes and returns one result; neither the result nor what it does to BUF and OVF
depends on CMD_MAP (R9), on the commands still to be taken, or on the results returned before, and it changes none of them but
for adding its own result (00_scope.md sections 2 and 3, 70_reset_and_hazards.md section 3). -/
def Obligations.EveryOperationCompletesWithOneResult : Prop :=
  ∀ (i : Instr) (s : State), ∃ (buf : Memory) (ovf : Bool) (r : Result),
    ∀ (m : CmdMap) (cs : List Command) (rs : List Result),
      exec i { s with params := { s.params with cmdMap := m }, pending := cs, results := rs } =
        .next { params := { s.params with cmdMap := m }, buf := buf, ovf := ovf, pending := cs, results := rs ++ [r] }

/-- R20: OVF is 0 after reset; a FEED of more bytes than there is room for sets it, and only with a finite BUF_CAP; only RESET
clears it; no other operation writes it; and no operation but STATUS reads it, so STEP and DRAIN behave the same whatever its value. -/
def Obligations.OverflowFlagIsSticky : Prop :=
  (∀ p, (State.resetWith p).ovf = false) ∧
  (∀ (i : Instr) (s t : State), exec i s = .next t →
    (i = .reset ∧ t.ovf = false) ∨
    (∃ bs n, i = .feed bs ∧ s.params.bufCap = .bounded n ∧ n < s.buf.length + bs.length ∧ bs ≠ [] ∧ t.ovf = true) ∨
    (i ≠ .reset ∧ t.ovf = s.ovf ∧
      ∀ bs n, i = .feed bs → s.params.bufCap = .bounded n → s.buf.length + bs.length ≤ n ∨ bs = [])) ∧
  (∀ s : State, exec .status s = .next { s with results := s.results ++ [.ok (.status s.buf.length s.ovf)] }) ∧
  ∀ (i : Instr) (s : State), i ≠ .status → ∃ (buf : Memory) (r : Result), ∀ o : Bool, ∃ o' : Bool,
    exec i { s with ovf := o } = .next { s with buf := buf, ovf := o', results := s.results ++ [r] }

/-- The pure operations read only their operands: their result does not depend on BUF and OVF, and they write neither
(10_state.md section 1, 20_memory.md section 2). -/
def Obligations.PureOperationsReadOnlyTheirOperands : Prop :=
  ∀ (i : Instr) (s : State), isPureOperation i = true → ∃ r : Result, ∀ (buf : Memory) (ovf : Bool),
    exec i { s with buf := buf, ovf := ovf } =
      .next { s with buf := buf, ovf := ovf, results := s.results ++ [r] }

/-- R131: an operation that returns an error code other than E_OVF has written no state, and one that returns E_OVF is a FEED
that has written exactly what R104 says; no error changes what the host issues next, and none is more than a returned code. -/
def Obligations.ErrorsArePrecise : Prop :=
  ∀ (i : Instr) (s t : State) (e : ErrorInfo), exec i s = .next t → t.results = s.results ++ [.error e] →
    t.pending = s.pending ∧ t.params = s.params ∧
    ((∀ d, e ≠ .ovf d) → t = { s with results := s.results ++ [.error e] }) ∧
    (∀ d, e = .ovf d → ∃ bs, i = .feed bs ∧ d = bs.length - feedKeeps bs s ∧
      t = { s with buf := s.buf ++ bs.take (feedKeeps bs s), ovf := true, results := s.results ++ [.error e] })

/-- R19: BUF is empty after reset and never longer than BUF_CAP; FEED appends at its back bytes of its operand in their order;
STEP and DRAIN remove bytes from its front only; RESET empties it; no other operation writes it. -/
def Obligations.BufferGrowsAtTheBackAndShrinksAtTheFront : Prop :=
  (∀ p, (State.resetWith p).buf = []) ∧
  ∀ (i : Instr) (s t : State), exec i s = .next t →
    (s.bufWithinCap → t.bufWithinCap) ∧
    ((∃ bs k, i = .feed bs ∧ t.buf = s.buf ++ bs.take k) ∨
     (∃ k, (i = .step ∨ i = .drain) ∧ k ≤ s.buf.length ∧ t.buf = s.buf.drop k) ∨
     (i = .reset ∧ t.buf = []) ∨
     (i ≠ .step ∧ i ≠ .drain ∧ i ≠ .reset ∧ (∀ bs, i ≠ .feed bs) ∧ t.buf = s.buf))

/-- No step changes a parameter of the instance, whatever the command (10_state.md section 4, 70_reset_and_hazards.md
section 1). -/
def Obligations.NoStepChangesAParameter : Prop :=
  ∀ s t : State, step s = .next t → t.params = s.params

/-- R123: every operation returns OK or one of the codes of the table, under the numbers of the table, each raised only by the
operations its row names, for the cause and with the information its row gives; an op code that is not assigned returns
E_ILLEGAL. -/
def Obligations.EveryOperationReturnsACodeOfItsRow : Prop :=
  (∀ v, (Result.ok v).code = 0x00#8) ∧
  (∀ n, (Result.error (.len n)).code = 0x01#8) ∧ (∀ n, (Result.error (.rpcShort n)).code = 0x02#8) ∧
  (∀ n, (Result.error (.ovf n)).code = 0x03#8) ∧ (∀ n, (Result.error (.payload n)).code = 0x04#8) ∧
  (Result.error .noTx).code = 0x05#8 ∧ (∀ q, (Result.error (.start q)).code = 0x06#8) ∧
  (∀ b, (Result.error (.illegal b)).code = 0x07#8) ∧
  (∀ (s : State) (c : Command) (rest : List Command), s.pending = c :: rest → c.opcodeAssigned = false →
    step s = .next { s with pending := rest, results := s.results ++ [.error (.illegal c.opcode)] }) ∧
  ∀ (i : Instr) (s t : State), exec i s = .next t → ∃ r, t.results = s.results ++ [r] ∧
    ((∃ v, r = .ok v) ∨
     (∃ l, 255 < l.length ∧ r = .error (.len l.length) ∧
       ((∃ ty, i = .encodeFrame ty l) ∨ (∃ c, i = .encodeCommand c l) ∨ ∃ u, i = .encodeWifi l u ∨ i = .encodeWifi u l)) ∨
     (∃ p, i = .decodeResult p ∧ p.length < 2 ∧ r = .error (.rpcShort p.length)) ∨
     (∃ bs, i = .feed bs ∧ feedKeeps bs s < bs.length ∧ r = .error (.ovf (bs.length - feedKeeps bs s))) ∨
     (∃ p, (i = .decodeState p ∨ i = .decodeError p) ∧ p.length ≠ 1 ∧ r = .error (.payload p.length)) ∨
     (s.params.hasTxBuilder = false ∧ r = .error .noTx ∧
       ((∃ ty p, i = .encodeFrame ty p) ∨ (∃ c a, i = .encodeCommand c a) ∨ ∃ u w, i = .encodeWifi u w)) ∨
     (∃ bs q, i = .tryDecode bs q ∧ ¬ tagBegins bs q ∧ r = .error (.start q)))

/-- Commands are served in the order the host issues them, each seeing every effect of the earlier ones: as many steps as
there are commands run exactly the operations they encode, one after the other (20_memory.md section 4). -/
def Obligations.CommandsRunInIssueOrder : Prop :=
  ∀ (is : List Instr) (s : State), s.pending = is.map encode →
    stepTimes is.length s = runOps is { s with pending := [] } ∧
    ∃ t, runOps is { s with pending := [] } = .next t ∧ t.pending = [] ∧
      t.results.length = s.results.length + is.length ∧ ∃ rs, t.results = s.results ++ rs

/-- The invariant of an instance holds in the reset state, whatever its parameters. -/
def Obligations.InvariantHoldsAtReset : Prop :=
  ∀ p : Params, (State.resetWith p).Inv

/-- Every step keeps the invariant of an instance, from any state that has it and whatever the command: |BUF| is at most
BUF_CAP; OVF is set only where BUF_CAP is finite and a FEED has returned E_OVF; and every frame the block has returned has
version 01, a payload as long as its length byte, and the checksum of its bytes. -/
def Obligations.EveryStepKeepsTheInvariant : Prop :=
  ∀ s t : State, s.Inv → step s = .next t → t.Inv

/-! ### The checksum unit -/

/-- R73: the op code 10 is CHECKSUM; it returns the sum of the bytes modulo 256 and writes no state. -/
def Obligations.ChecksumIsTheSumModulo256 : Prop :=
  (∀ bs, decode { opcode := 0x10#8, operands := [.bytes bs] } = .ok (.checksum bs)) ∧
  ∀ (bs : List Byte) (s : State), ∃ b : Byte, b.toNat = (bs.map BitVec.toNat).sum % 256 ∧
    exec (.checksum bs) s = .next { s with results := s.results ++ [.ok (.byte b)] }

/-- R74: the op code 11 is VERIFY; it returns whether the sum modulo 256 is the expected byte, and writes no state;
and on a full candidate of version 01 the frame decoder makes exactly this comparison of the covered bytes with the checksum
byte: the verdict is Valid exactly where VERIFY answers true. -/
def Obligations.VerifyComparesTheSum : Prop :=
  (∀ bs c, decode { opcode := 0x11#8, operands := [.bytes bs, .u8 c] } = .ok (.verify bs c)) ∧
  (∀ (bs : List Byte) (c : Byte) (s : State), exec (.verify bs c) s =
    .next { s with results := s.results ++ [.ok (.bool (decide ((bs.map BitVec.toNat).sum % 256 = c.toNat)))] }) ∧
  (∀ (c : Byte) (s : State), exec (.verify [] c) s =
    .next { s with results := s.results ++ [.ok (.bool (decide (c = 0x00#8)))] }) ∧
  ∀ (bs : List Byte) (q : Nat) (n c : Byte) (s : State), tagBegins bs q → bs[q + 6]? = some 0x01#8 →
    bs[q + 8]? = some n → bs[q + 9 + n.toNat]? = some c →
    (exec (.verify ((bs.drop (q + 6)).take (3 + n.toNat)) c) s =
        .next { s with results := s.results ++ [.ok (.bool true)] } ↔
      ∃ f k, exec (.tryDecode bs q) s = .next { s with results := s.results ++ [.ok (.verdict (.valid f k))] })

/-- Changing one byte of a sequence changes its checksum: the spec's law (a) of sum8, which it marks as derived
(40_checksum.md). -/
def Obligations.ChangingOneByteChangesTheChecksum : Prop :=
  ∀ (x y : List Byte) (a b : Byte) (s : State) (u w : Byte), a ≠ b →
    exec (.checksum (x ++ a :: y)) s = .next { s with results := s.results ++ [.ok (.byte u)] } →
    exec (.checksum (x ++ b :: y)) s = .next { s with results := s.results ++ [.ok (.byte w)] } →
    u ≠ w

/-- Reordering bytes, and inserting or removing 00 bytes, leave the checksum as it was, and the checksum of a concatenation is
the sum modulo 256 of the two: laws of sum8 the spec marks as derived (40_checksum.md). -/
def Obligations.ChecksumIgnoresOrderAndZeros : Prop :=
  (∀ (x y : List Byte) (s : State), x.Perm y → exec (.checksum x) s = exec (.checksum y) s) ∧
  (∀ (x y : List Byte) (n : Nat) (s : State),
    exec (.checksum (x ++ List.replicate n 0x00#8 ++ y)) s = exec (.checksum (x ++ y)) s) ∧
  ∀ (x y : List Byte) (s : State) (u w : Byte),
    exec (.checksum x) s = .next { s with results := s.results ++ [.ok (.byte u)] } →
    exec (.checksum y) s = .next { s with results := s.results ++ [.ok (.byte w)] } →
    exec (.checksum (x ++ y)) s = .next { s with results := s.results ++ [.ok (.byte (u + w))] }

/-! ### The frame codec -/

/-- R86: the op code 30 is ENCODE_FRAME; with the TX builder and a payload of at most 255 bytes it returns magic, 01, type,
length, payload and checksum; a longer payload is E_LEN with its length; nothing is written. -/
def Obligations.EncodeFrameBuildsTheWireLayout : Prop :=
  (∀ t p, decode { opcode := 0x30#8, operands := [.u8 t, .bytes p] } = .ok (.encodeFrame t p)) ∧
  (∀ (t : Byte) (p : List Byte) (s : State), s.params.hasTxBuilder = true → p.length ≤ 255 →
    exec (.encodeFrame t p) s = .next { s with results := s.results ++ [.ok (.bytes (builtFrame t p))] } ∧
    (builtFrame t p).length = 10 + p.length) ∧
  (∀ (t : Byte) (p : List Byte) (s : State), s.params.hasTxBuilder = true → 255 < p.length →
    exec (.encodeFrame t p) s = .next { s with results := s.results ++ [.error (.len p.length)] }) ∧
  ∀ (t : Byte) (p : List Byte) (s : State), s.params.hasTxBuilder = false →
    exec (.encodeFrame t p) s = .next { s with results := s.results ++ [.error .noTx] }

/-- R128: on an instance without the TX builder each of its three operations returns E_NOTX, whatever the operands, and no
state is written. -/
def Obligations.AbsentTxBuilderReturnsENotx : Prop :=
  ∀ (i : Instr) (s : State), s.params.hasTxBuilder = false →
    ((∃ t p, i = .encodeFrame t p) ∨ (∃ c a, i = .encodeCommand c a) ∨ ∃ u w, i = .encodeWifi u w) →
    exec i s = .next { s with results := s.results ++ [.error .noTx] } ∧ (Result.error .noTx).code = 0x05#8

/-- R78, R79, R129: the op code 13 is TRY_DECODE. Where the magic tag, or a prefix of it that ends the operand, does not
begin at `q`, it returns E_START; else the verdict, by the steps of the pseudocode: fewer than 9 bytes; a bad version under
at_prefix; fewer than 10 + N bytes; a bad version; a bad checksum; Valid with the frame and 10 + N. No state is written.
A whole tag always meets the precondition, so the scan never meets E_START. -/
def Obligations.TryDecodeClassifiesTheCandidate : Prop :=
  (∀ bs q, decode { opcode := 0x13#8, operands := [.bytes bs, .nat q] } = .ok (.tryDecode bs q)) ∧
  (∀ bs q, tagAt bs q → tagBegins bs q) ∧
  ∀ (bs : List Byte) (q : Nat) (s : State),
    (¬ tagBegins bs q → exec (.tryDecode bs q) s = .next { s with results := s.results ++ [.error (.start q)] }) ∧
    (tagBegins bs q → bs.length - q < 9 →
      exec (.tryDecode bs q) s = .next { s with results := s.results ++ [.ok (.verdict .needMoreData)] }) ∧
    ∀ v t n : Byte, tagBegins bs q → bs[q + 6]? = some v → bs[q + 7]? = some t → bs[q + 8]? = some n →
      (s.params.versionCheckAt = .atPrefix → v ≠ 0x01#8 →
        exec (.tryDecode bs q) s = .next { s with results := s.results ++ [.ok (.verdict .invalid)] }) ∧
      ((s.params.versionCheckAt = .atPrefix → v = 0x01#8) → bs.length - q < 10 + n.toNat →
        exec (.tryDecode bs q) s = .next { s with results := s.results ++ [.ok (.verdict .needMoreData)] }) ∧
      (10 + n.toNat ≤ bs.length - q → v ≠ 0x01#8 →
        exec (.tryDecode bs q) s = .next { s with results := s.results ++ [.ok (.verdict .invalid)] }) ∧
      ∀ c : Byte, bs[q + 9 + n.toNat]? = some c → v = 0x01#8 →
        (((((bs.drop (q + 6)).take (3 + n.toNat)).map BitVec.toNat).sum % 256 ≠ c.toNat →
          exec (.tryDecode bs q) s = .next { s with results := s.results ++ [.ok (.verdict .invalid)] }) ∧
         ((((bs.drop (q + 6)).take (3 + n.toNat)).map BitVec.toNat).sum % 256 = c.toNat →
          exec (.tryDecode bs q) s = .next { s with results := s.results ++ [.ok (.verdict (.valid
            { version := v, ftype := t, length := n, payload := (bs.drop (q + 9)).take n.toNat, checksum := c }
            (10 + n.toNat)))] }))

/-- R80: at a magic tag the verdict is NeedMoreData exactly when fewer than 9 bytes are present from it, or the prefix is
present, fewer than 10 + N bytes are, and under at_prefix the version byte is 01. -/
def Obligations.NeedMoreDataExactlyWhenIncomplete : Prop :=
  ∀ (bs : List Byte) (q : Nat) (s : State), tagBegins bs q →
    (exec (.tryDecode bs q) s = .next { s with results := s.results ++ [.ok (.verdict .needMoreData)] } ↔
      bs.length - q < 9 ∨
      ∃ v n : Byte, bs[q + 6]? = some v ∧ bs[q + 8]? = some n ∧ bs.length - q < 10 + n.toNat ∧
        (s.params.versionCheckAt = .atPrefix → v = 0x01#8))

/-- Only NeedMoreData can change when bytes are appended, and bytes before the candidate change nothing: verdict laws the spec
marks as derived (41_frame_codec.md section 2). -/
def Obligations.VerdictDependsOnlyOnTheCandidate : Prop :=
  (∀ (x c : List Byte) (q : Nat) (s : State) (v : Verdict),
    exec (.tryDecode c q) s = .next { s with results := s.results ++ [.ok (.verdict v)] } →
    exec (.tryDecode (x ++ c) (x.length + q)) s = .next { s with results := s.results ++ [.ok (.verdict v)] }) ∧
  ∀ (c t : List Byte) (q : Nat) (s : State) (v : Verdict), v ≠ .needMoreData →
    exec (.tryDecode c q) s = .next { s with results := s.results ++ [.ok (.verdict v)] } →
    exec (.tryDecode (c ++ t) q) s = .next { s with results := s.results ++ [.ok (.verdict v)] }

/-- Round trip, which the spec marks as derived (41_frame_codec.md section 3): what ENCODE_FRAME returns for a type and a
payload, TRY_DECODE at offset 0 decodes to exactly that type and payload, consuming all of it, under either version check. -/
def Obligations.EncodeThenDecodeReturnsTheFrame : Prop :=
  ∀ (t : Byte) (p f : List Byte) (s u : State),
    exec (.encodeFrame t p) s = .next { s with results := s.results ++ [.ok (.bytes f)] } →
    exec (.tryDecode f 0) u =
      .next { u with results := u.results ++ [.ok (.verdict (.valid (builtRecord t p) f.length))] }

/-- Canonical form, which the spec marks as derived (41_frame_codec.md section 3): a sequence is a valid frame that TRY_DECODE
consumes whole exactly when it is what ENCODE_FRAME returns for its type byte and its payload bytes. -/
def Obligations.ValidFramesAreExactlyTheEncodedOnes : Prop :=
  ∀ (f : List Byte) (s : State), s.params.hasTxBuilder = true → 10 ≤ f.length →
    ((∃ r, exec (.tryDecode f 0) s = .next { s with results := s.results ++ [.ok (.verdict (.valid r f.length))] }) ↔
      ∃ t, f[7]? = some t ∧ exec (.encodeFrame t ((f.drop 9).take (f.length - 10))) s =
        .next { s with results := s.results ++ [.ok (.bytes f)] })

/-- Changing the version, type, checksum or any payload byte of a valid frame makes it Invalid: a verdict law the spec marks as
derived, here for any change of the byte and not only a flip of one bit (41_frame_codec.md section 2). -/
def Obligations.ChangingAByteOfAValidFrameMakesItInvalid : Prop :=
  ∀ (f : List Byte) (r : Frame) (s : State) (j : Nat) (b : Byte),
    exec (.tryDecode f 0) s = .next { s with results := s.results ++ [.ok (.verdict (.valid r f.length))] } →
    6 ≤ j → j ≠ 8 → j < f.length → f[j]? ≠ some b →
    exec (.tryDecode (f.set j b) 0) s = .next { s with results := s.results ++ [.ok (.verdict .invalid)] }

/-! ### The RPC codec and the payload interpreters -/

/-- R89: the op code 31 is ENCODE_COMMAND; it returns the command byte, the argument's length and the argument; an argument of
more than 255 bytes is E_LEN with its length; nothing is written. -/
def Obligations.EncodeCommandPrefixesTheArgument : Prop :=
  (∀ c a, decode { opcode := 0x31#8, operands := [.u8 c, .bytes a] } = .ok (.encodeCommand c a)) ∧
  ∀ (c : Byte) (a : List Byte) (s : State),
    (s.params.hasTxBuilder = true → a.length ≤ 255 → exec (.encodeCommand c a) s =
      .next { s with results := s.results ++ [.ok (.bytes (c :: BitVec.ofNat 8 a.length :: a))] }) ∧
    (s.params.hasTxBuilder = true → 255 < a.length → exec (.encodeCommand c a) s =
      .next { s with results := s.results ++ [.error (.len a.length)] }) ∧
    (s.params.hasTxBuilder = false → exec (.encodeCommand c a) s =
      .next { s with results := s.results ++ [.error .noTx] })

/-- R91: the op code 32 is ENCODE_WIFI; it returns each string after its length byte; a string of more than 255 bytes is E_LEN
with its length, the SSID's first; nothing is written. -/
def Obligations.EncodeWifiPrefixesBothStrings : Prop :=
  (∀ u w, decode { opcode := 0x32#8, operands := [.bytes u, .bytes w] } = .ok (.encodeWifi u w)) ∧
  ∀ (u w : List Byte) (s : State),
    (s.params.hasTxBuilder = true → u.length ≤ 255 → w.length ≤ 255 → exec (.encodeWifi u w) s =
      .next { s with results := s.results ++
        [.ok (.bytes (BitVec.ofNat 8 u.length :: u ++ BitVec.ofNat 8 w.length :: w))] }) ∧
    (s.params.hasTxBuilder = true → 255 < u.length → exec (.encodeWifi u w) s =
      .next { s with results := s.results ++ [.error (.len u.length)] }) ∧
    (s.params.hasTxBuilder = true → u.length ≤ 255 → 255 < w.length → exec (.encodeWifi u w) s =
      .next { s with results := s.results ++ [.error (.len w.length)] }) ∧
    (s.params.hasTxBuilder = false → exec (.encodeWifi u w) s =
      .next { s with results := s.results ++ [.error .noTx] })

/-- SENDCMD gives a frame exactly for an argument of at most 253 bytes, and then the frame of type 03 around the command; for a
longer one the last result is an E_LEN and nothing is sent, which the spec marks as derived (42_rpc_codec.md section 1). -/
def Obligations.SendCmdFitsExactlyTo253Bytes : Prop :=
  ∀ (c : Byte) (a : List Byte) (s : State), s.params.hasTxBuilder = true →
    ∃ rs r, sendCmd c a s = .next { s with results := s.results ++ rs ++ [r] } ∧
      (a.length ≤ 253 → r = .ok (.bytes (builtFrame 0x03#8 (c :: BitVec.ofNat 8 a.length :: a)))) ∧
      (253 < a.length → a.length ≤ 255 → r = .error (.len (a.length + 2))) ∧
      (255 < a.length → r = .error (.len a.length))

/-- SENDWIFI gives a frame exactly when the two strings have at most 251 bytes together; else the stage that fails is the one
the spec names: a string, the argument, or the frame payload. The spec marks it as derived (42_rpc_codec.md section 1). -/
def Obligations.SendWifiFitsExactlyTo251Bytes : Prop :=
  ∀ (u w : List Byte) (s : State), s.params.hasTxBuilder = true →
    ∃ rs r, sendWifi u w s = .next { s with results := s.results ++ rs ++ [r] } ∧
      (u.length + w.length ≤ 251 → r = .ok (.bytes (builtFrame 0x03#8
        (0x01#8 :: BitVec.ofNat 8 (u.length + w.length + 2) ::
          (BitVec.ofNat 8 u.length :: u ++ BitVec.ofNat 8 w.length :: w))))) ∧
      (251 < u.length + w.length → u.length ≤ 255 → w.length ≤ 255 →
        (u.length + w.length ≤ 253 → r = .error (.len (u.length + w.length + 4))) ∧
        (253 < u.length + w.length → r = .error (.len (u.length + w.length + 2)))) ∧
      (255 < u.length → r = .error (.len u.length)) ∧
      (u.length ≤ 255 → 255 < w.length → r = .error (.len w.length))

/-- R94, R95: the op code 20 is DECODE_RESULT. A payload of fewer than 2 bytes is E_RPC_SHORT with its length. Else the result
is the command byte and the values of the walk: none where the payload is at its end; else the bytes after a length byte, up to
that many, and then the walk from there on. No state is written. -/
def Obligations.DecodeResultWalksTheValues : Prop :=
  (∀ p, decode { opcode := 0x20#8, operands := [.bytes p] } = .ok (.decodeResult p)) ∧
  (∀ (p : List Byte) (s : State), p.length < 2 →
    exec (.decodeResult p) s = .next { s with results := s.results ++ [.error (.rpcShort p.length)] }) ∧
  ∀ (c d : Byte) (s : State),
    exec (.decodeResult [c, d]) s =
      .next { s with results := s.results ++ [.ok (.rpcResult { command := c, values := [] })] } ∧
    ∀ (n : Byte) (tail : List Byte), ∃ vs,
      exec (.decodeResult (c :: d :: tail.drop n.toNat)) s =
        .next { s with results := s.results ++ [.ok (.rpcResult { command := c, values := vs })] } ∧
      exec (.decodeResult (c :: d :: n :: tail)) s =
        .next { s with results := s.results ++
          [.ok (.rpcResult { command := c, values := tail.take n.toNat :: vs })] }

/-- R96: where the last length byte asks for more bytes than remain, the last value is the bytes that remain; no error is
raised and the value is not dropped. -/
def Obligations.OverlongLastValueIsTruncated : Prop :=
  ∀ (c d n : Byte) (vs : List (List Byte)) (tail : List Byte) (s : State), (∀ v ∈ vs, v.length ≤ 255) →
    tail.length < n.toNat →
    exec (.decodeResult (c :: d :: (prefixedValues vs ++ n :: tail))) s =
      .next { s with results := s.results ++ [.ok (.rpcResult { command := c, values := vs ++ [tail] })] }

/-- Values of at most 255 bytes, each after its length byte, decode to exactly those values, whatever the declared length:
the consequence the spec draws from its rules on the walk and marks as derived (42_rpc_codec.md section 2). -/
def Obligations.PrefixedValuesDecodeExactly : Prop :=
  ∀ (c d : Byte) (vs : List (List Byte)) (s : State), (∀ v ∈ vs, v.length ≤ 255) →
    exec (.decodeResult (c :: d :: prefixedValues vs)) s =
      .next { s with results := s.results ++ [.ok (.rpcResult { command := c, values := vs })] }

/-- R98: the op code 21 is DECODE_STATE; the meaning of each state byte under each STATE_MAP. No state is written. -/
def Obligations.DecodeStateNamesTheStateByte : Prop :=
  (∀ p, decode { opcode := 0x21#8, operands := [.bytes p] } = .ok (.decodeState p)) ∧
  (∀ (p : List Byte) (s : State), p.length ≠ 1 →
    exec (.decodeState p) s = .next { s with results := s.results ++ [.error (.payload p.length)] }) ∧
  ∀ (b : Byte) (s : State), ∃ d : DeviceState,
    exec (.decodeState [b]) s = .next { s with results := s.results ++ [.ok (.deviceState d)] } ∧
    (b = 0x03#8 → d = .provisioning) ∧ (b = 0x04#8 → d = .provisioned) ∧
    (b = 0x01#8 → s.params.stateMap = .listed → d = .awaitingAuthorization) ∧
    (b = 0x01#8 → s.params.stateMap = .swapped → d = .authorized) ∧
    (b = 0x02#8 → s.params.stateMap = .listed → d = .authorized) ∧
    (b = 0x02#8 → s.params.stateMap = .swapped → d = .awaitingAuthorization) ∧
    (b = 0x00#8 ∨ 0x05 ≤ b.toNat → d = .unrecognizedState b)

/-- R99: the op code 22 is DECODE_ERROR; the meaning of each error byte. No state is written. -/
def Obligations.DecodeErrorNamesTheErrorByte : Prop :=
  (∀ p, decode { opcode := 0x22#8, operands := [.bytes p] } = .ok (.decodeError p)) ∧
  (∀ (p : List Byte) (s : State), p.length ≠ 1 →
    exec (.decodeError p) s = .next { s with results := s.results ++ [.error (.payload p.length)] }) ∧
  ∀ (b : Byte) (s : State), ∃ d : DeviceError,
    exec (.decodeError [b]) s = .next { s with results := s.results ++ [.ok (.deviceError d)] } ∧
    (b = 0x00#8 → d = .none) ∧ (b = 0x01#8 → d = .invalidRpc) ∧ (b = 0x02#8 → d = .unknownRpc) ∧
    (b = 0x03#8 → d = .unableToConnect) ∧ (b = 0x04#8 → d = .notAuthorized) ∧ (b = 0xFF#8 → d = .unknown) ∧
    (0x05 ≤ b.toNat → b.toNat ≤ 0xFE → d = .unrecognizedError b)

/-! ### The stream demultiplexer -/

/-- R104, R105: the op code 01 is FEED; it appends its bytes in index order as long as there is room. With room for all of them
it returns OK; else the first that fit are appended, every later one is dropped, OVF is set and E_OVF is returned with the
count dropped. Bytes already in BUF are kept, and OVF stays set until RESET. -/
def Obligations.FeedAppendsWhatFits : Prop :=
  (∀ bs, decode { opcode := 0x01#8, operands := [.bytes bs] } = .ok (.feed bs)) ∧
  (∀ (i : Instr) (s t : State), i ≠ .reset → s.ovf = true → exec i s = .next t → t.ovf = true) ∧
  ∀ (bs : List Byte) (s : State),
    (s.params.bufCap = .unbounded → exec (.feed bs) s =
      .next { s with buf := s.buf ++ bs, results := s.results ++ [.ok .none] }) ∧
    ∀ n, s.params.bufCap = .bounded n →
      (bs.length ≤ n - s.buf.length → exec (.feed bs) s =
        .next { s with buf := s.buf ++ bs, results := s.results ++ [.ok .none] }) ∧
      (n - s.buf.length < bs.length → exec (.feed bs) s =
        .next { s with
          buf := s.buf ++ bs.take (n - s.buf.length)
          ovf := true
          results := s.results ++ [.error (.ovf (bs.length - (n - s.buf.length)))] })

/-- FEED is a concatenation law, which the spec marks as derived (20_memory.md section 2): feeding two sequences one after the
other leaves BUF and OVF as feeding their concatenation does, and the pair drops as many bytes in all. -/
def Obligations.FeedIsAConcatenationLaw : Prop :=
  ∀ (x y : List Byte) (s : State), ∃ (t : State) (r₁ r₂ r : Result) (d₁ d₂ : Nat),
    runOps [.feed x, .feed y] s = .next { t with results := s.results ++ [r₁, r₂] } ∧
    runOps [.feed (x ++ y)] s = .next { t with results := s.results ++ [r] } ∧
    r₁ = (if d₁ = 0 then .ok .none else .error (.ovf d₁)) ∧
    r₂ = (if d₂ = 0 then .ok .none else .error (.ovf d₂)) ∧
    r = (if d₁ + d₂ = 0 then .ok .none else .error (.ovf (d₁ + d₂)))

/-- R106: the op code 12 is FIND_MAGIC; it returns the least offset at which the six bytes of the tag stand whole, and None if
there is none. No state is written. -/
def Obligations.FindMagicReturnsTheLeastWholeTag : Prop :=
  (∀ bs, decode { opcode := 0x12#8, operands := [.bytes bs] } = .ok (.findMagic bs)) ∧
  (∀ (bs : List Byte) (p : Nat) (s : State), p + 6 ≤ bs.length → tagAt bs p → (∀ j, j < p → ¬ tagAt bs j) →
    exec (.findMagic bs) s = .next { s with results := s.results ++ [.ok (.offset (some p))] }) ∧
  ∀ (bs : List Byte) (s : State), (∀ p, p + 6 ≤ bs.length → ¬ tagAt bs p) →
    exec (.findMagic bs) s = .next { s with results := s.results ++ [.ok (.offset none)] }

/-- R107, R108, R110: the op code 02 is STEP. It searches all of BUF from offset 0: with no tag it returns Stop(NoMagic); else
it takes the verdict TRY_DECODE gives at the first tag: NeedMoreData is Stop(NeedMoreData), and a Stop writes nothing; Invalid
removes exactly BUF[0] and is Discard; Valid removes the bytes before the tag and the frame, and is Emit. OVF is not written. -/
def Obligations.StepTakesTheFirstTag : Prop :=
  decode { opcode := 0x02#8, operands := [] } = .ok .step ∧
  ∀ s : State,
    (tagFree s.buf → exec .step s = .next { s with results := s.results ++ [.ok (.step (.stop .noMagic))] }) ∧
    ∀ p, firstTag s.buf p →
      ∃ v, exec (.tryDecode s.buf p) s = .next { s with results := s.results ++ [.ok (.verdict v)] } ∧
        (v = .needMoreData →
          exec .step s = .next { s with results := s.results ++ [.ok (.step (.stop .needMoreData))] }) ∧
        (v = .invalid →
          exec .step s = .next { s with buf := s.buf.drop 1, results := s.results ++ [.ok (.step .discard)] }) ∧
        ∀ f n, v = .valid f n → 10 + f.payload.length = n ∧
          exec .step s = .next { s with buf := s.buf.drop (p + n), results := s.results ++ [.ok (.step (.emit f))] }

/-- R111: the op code 03 is DRAIN; it repeats STEP, keeping the frames emitted in order, until a STEP stops, and returns the
frames and the stop reason; BUF is left as the steps leave it. -/
def Obligations.DrainIsTheLoopOfSteps : Prop :=
  decode { opcode := 0x03#8, operands := [] } = .ok .drain ∧
  ∀ s : State, ∃ (r : StepResult) (b : Memory),
    exec .step s = .next { s with buf := b, results := s.results ++ [.ok (.step r)] } ∧
    (∀ reason, r = .stop reason →
      exec .drain s = .next { s with results := s.results ++ [.ok (.drain [] reason)] }) ∧
    ((∀ reason, r ≠ .stop reason) → ∃ fs reason b',
      exec .drain { s with buf := b } =
        .next { s with buf := b', results := s.results ++ [.ok (.drain fs reason)] } ∧
      (r = .discard → exec .drain s =
        .next { s with buf := b', results := s.results ++ [.ok (.drain fs reason)] }) ∧
      ∀ f, r = .emit f → exec .drain s =
        .next { s with buf := b', results := s.results ++ [.ok (.drain (f :: fs) reason)] })

/-- DRAINSTEPS ends in the same state as DRAIN and emits the same frames, by at most |BUF| + 1 STEPs of which the last stops with
DRAIN's reason; the spec marks it as derived (30_encoding.md section 5, 43_stream_demux.md section 5). -/
def Obligations.DrainStepsEndsAsDrain : Prop :=
  ∀ s : State, ∃ (fs : List Frame) (reason : StopReason) (b : Memory) (rs : List StepResult),
    exec .drain s = .next { s with buf := b, results := s.results ++ [.ok (.drain fs reason)] } ∧
    drainSteps s =
      .next { s with buf := b, results := s.results ++ (rs ++ [StepResult.stop reason]).map (fun r => .ok (.step r)) } ∧
    rs.length ≤ s.buf.length ∧ (∀ r ∈ rs, ∀ reason', r ≠ .stop reason') ∧
    rs.flatMap (fun r => match r with | .emit f => [f] | _ => []) = fs

/-- A STEP that stops and a DRAIN are idempotent, which the spec marks as derived (20_memory.md section 2): the same STEP again
returns the same Stop, and a DRAIN directly after a DRAIN returns no frames and the same reason and leaves BUF as it was. -/
def Obligations.StopAndDrainAreIdempotent : Prop :=
  (∀ (s : State) (b : Memory) (reason : StopReason),
    exec .step s = .next { s with buf := b, results := s.results ++ [.ok (.step (.stop reason))] } →
    runOps [.step, .step] s =
      .next { s with results := s.results ++ [.ok (.step (.stop reason)), .ok (.step (.stop reason))] }) ∧
  ∀ (s : State) (b : Memory) (fs : List Frame) (reason : StopReason),
    exec .drain s = .next { s with buf := b, results := s.results ++ [.ok (.drain fs reason)] } →
    runOps [.drain, .drain] s =
      .next { s with buf := b, results := s.results ++ [.ok (.drain fs reason), .ok (.drain [] reason)] }

/-- Progress, which the spec marks as derived (43_stream_demux.md section 5): every STEP that does not stop removes at least one
byte, a STEP that stops removes none, and a DRAIN returns at most a tenth as many frames as BUF holds bytes. -/
def Obligations.ScanMakesProgress : Prop :=
  (∀ s : State, ∃ (r : StepResult) (k : Nat), k ≤ s.buf.length ∧
    exec .step s = .next { s with buf := s.buf.drop k, results := s.results ++ [.ok (.step r)] } ∧
    ((∃ reason, r = .stop reason) ↔ k = 0)) ∧
  ∀ s : State, ∃ (fs : List Frame) (reason : StopReason) (b : Memory),
    exec .drain s = .next { s with buf := b, results := s.results ++ [.ok (.drain fs reason)] } ∧
    10 * fs.length + b.length ≤ s.buf.length

/-- An Invalid candidate at offset p is retried p + 1 times, each time Invalid, until its first byte is gone, which the spec
marks as derived (43_stream_demux.md section 4). -/
def Obligations.InvalidCandidateIsRetriedUntilItsFirstByteGoes : Prop :=
  ∀ (s : State) (p : Nat), firstTag s.buf p →
    exec (.tryDecode s.buf p) s = .next { s with results := s.results ++ [.ok (.verdict .invalid)] } →
    runOps (List.replicate (p + 1) .step) s =
      .next { s with
        buf := s.buf.drop (p + 1)
        results := s.results ++ List.replicate (p + 1) (.ok (.step .discard)) }

/-- While the first tag heads a candidate that is NeedMoreData, neither STEP nor DRAIN returns a frame or removes a byte, whatever
stands behind the candidate, which the spec marks as derived (43_stream_demux.md section 5, 70_reset_and_hazards.md section 2):
fewer than 9 bytes from the tag, or, its version 01 or checked at completion, fewer than 10 + N. -/
def Obligations.PendingCandidateBlocksTheStream : Prop :=
  ∀ (s : State) (p : Nat), firstTag s.buf p →
    (s.buf.length < p + 9 ∨
      ∃ v n : Byte, s.buf[p + 6]? = some v ∧ s.buf[p + 8]? = some n ∧ s.buf.length < p + 10 + n.toNat ∧
        (v = 0x01#8 ∨ s.params.versionCheckAt = .atComplete)) →
    exec .step s = .next { s with results := s.results ++ [.ok (.step (.stop .needMoreData))] } ∧
    exec .drain s = .next { s with results := s.results ++ [.ok (.drain [] .needMoreData)] }

/-- A stream of frames as ENCODE_FRAME makes them, with bytes holding no tag before each and after the last, is drained to exactly
those frames in order, and what follows the last frame is kept: the spec's resynchronization law (a), which it marks as derived,
for any number of frames and whatever their payloads hold (43_stream_demux.md section 5). -/
def Obligations.CleanStreamIsDecodedExactly : Prop :=
  ∀ (xs : List (List Byte × Byte × List Byte)) (z : List Byte) (s : State),
    (∀ x ∈ xs, tagFree x.1 ∧ x.2.2.length ≤ 255) → tagFree z →
    s.buf = xs.flatMap (fun x => x.1 ++ builtFrame x.2.1 x.2.2) ++ z →
    exec .drain s = .next { s with
      buf := z
      results := s.results ++ [.ok (.drain (xs.map fun x => builtRecord x.2.1 x.2.2) .noMagic)] }

/-- A frame whose checksum byte is wrong does not desynchronize the scan: one Discard, then the next frame, leaving nothing, if no
tag stands inside the wrong frame after its own; the spec's resynchronization law (b), which it marks as derived
(43_stream_demux.md section 5). -/
def Obligations.CorruptedFrameIsSkipped : Prop :=
  ∀ (t₁ t₂ c : Byte) (p₁ p₂ : List Byte) (s : State), p₁.length ≤ 255 → p₂.length ≤ 255 →
    c ≠ (builtRecord t₁ p₁).checksum →
    (∀ j, 0 < j → ¬ tagAt ((builtFrame t₁ p₁).set (9 + p₁.length) c) j) →
    s.buf = (builtFrame t₁ p₁).set (9 + p₁.length) c ++ builtFrame t₂ p₂ →
    runOps [.step, .step, .step] s = .next { s with
      buf := []
      results := s.results ++ [.ok (.step .discard), .ok (.step (.emit (builtRecord t₂ p₂))),
        .ok (.step (.stop .noMagic))] } ∧
    exec .drain s = .next { s with
      buf := []
      results := s.results ++ [.ok (.drain [builtRecord t₂ p₂] .noMagic)] }

/-- How the transport splits its bytes never changes the frames: draining between two FEEDs that lose no byte gives, over both
drains, the frames, the last reason and the BUF that feeding first and draining once gives; what the spec says of FEEDs between
steps and of split frames, marked as derived (20_memory.md section 4, 43_stream_demux.md section 5; log entry 11). -/
def Obligations.ChunkingNeverChangesTheFrames : Prop :=
  ∀ (y : List Byte) (s : State), feedFits y s →
    ∃ (fs₁ fs₂ : List Frame) (r₁ r₂ : StopReason) (b : Memory),
      runOps [.drain, .feed y, .drain] s = .next { s with
        buf := b
        results := s.results ++ [.ok (.drain fs₁ r₁), .ok .none, .ok (.drain fs₂ r₂)] } ∧
      runOps [.feed y, .drain] s = .next { s with
        buf := b
        results := s.results ++ [.ok .none, .ok (.drain (fs₁ ++ fs₂) r₂)] }

/-- The frames of a DRAIN stand in BUF, in order, byte for byte and without overlap: BUF before is a gap and a frame's bytes for
each frame returned, then bytes discarded, then BUF after (43_stream_demux.md sections 4 and 5; the order of output). -/
def Obligations.DrainedFramesStandInTheStreamInOrder : Prop :=
  ∀ (s : State), ∃ (fs : List Frame) (reason : StopReason) (b : Memory) (gaps : List (List Byte)) (discarded : List Byte),
    exec .drain s = .next { s with buf := b, results := s.results ++ [.ok (.drain fs reason)] } ∧
    gaps.length = fs.length ∧ (∀ f ∈ fs, f.wf ∧ builtRecord f.ftype f.payload = f) ∧
    s.buf = (gaps.zip fs).flatMap (fun x => x.1 ++ builtFrame x.2.ftype x.2.payload) ++ discarded ++ b

/-- A FEED that loses no byte and a STEP that does not stop commute: in either order they return the same two results and leave
the same BUF and OVF, which the spec marks as derived (20_memory.md section 4; log entry 11). -/
def Obligations.FeedAndStepCommute : Prop :=
  ∀ (y : List Byte) (s : State) (b : Memory) (r : StepResult), feedFits y s →
    exec .step s = .next { s with buf := b, results := s.results ++ [.ok (.step r)] } →
    (∀ reason, r ≠ .stop reason) →
    runOps [.step, .feed y] s =
      .next { s with buf := b ++ y, results := s.results ++ [.ok (.step r), .ok .none] } ∧
    runOps [.feed y, .step] s =
      .next { s with buf := b ++ y, results := s.results ++ [.ok .none, .ok (.step r)] }

/-- A full buffer that holds no tag is stuck until RESET, which the spec marks as derived (70_reset_and_hazards.md section 2):
DRAIN returns no frame and removes nothing, a FEED drops all its bytes, and RESET empties the buffer and clears OVF. -/
def Obligations.FullBufferWithoutTagIsStuckUntilReset : Prop :=
  ∀ (s : State) (n : Nat) (y : List Byte), s.params.bufCap = .bounded n → s.buf.length = n → tagFree s.buf → y ≠ [] →
    runOps [.drain, .feed y] s = .next { s with
      ovf := true
      results := s.results ++ [.ok (.drain [] .noMagic), .error (.ovf y.length)] } ∧
    runOps [.drain, .feed y, .reset] s = .next { s with
      buf := []
      ovf := false
      results := s.results ++ [.ok (.drain [] .noMagic), .error (.ovf y.length), .ok .none] }

/-! ### Liveness, and the absence of time -/

/-- The block is untimed, and every operation ends, which the spec marks as derived (R153, 70_reset_and_hazards.md section 3):
every operation in every state ends; and however many idle steps the host waits after some operations before it issues more,
the run ends where the run of all of them issued at once ends. The queue and idle steps are the model's (log entries 3, 12). -/
def Obligations.EveryOperationEndsAndIdleTimeChangesNothing : Prop :=
  (∀ (i : Instr) (s : State), operationEnds i s) ∧
  ∀ (is js : List Instr) (s : State), s.pending = is.map encode → ∃ t u : State, ∀ k : Nat,
    stepTimes (is.length + k) s = .next t ∧ t.pending = [] ∧
    stepTimes js.length { t with pending := js.map encode } = .next u ∧
    stepTimes (is.length + js.length) { s with pending := (is ++ js).map encode } = .next u
end

