-- ==== Sys2Proof/Laws/Decode.lean ====
section
/-! SUPPORT. The laws of the decoder. -/

namespace Sys2Proof

theorem decodeOpcode_code {b : Byte} {op : Op} (h : decodeOpcode b = some op) : op.code = b := by
  simp only [decodeOpcode, Option.map_eq_some_iff] at h
  obtain ⟨r, hr, rfl⟩ := h
  have hb := List.find?_some hr
  have hm := List.mem_of_find?_eq_some hr
  simp only [beq_iff_eq] at hb
  subst hb
  simp only [opcodeMap, List.cons_append, List.nil_append, List.mem_cons, List.not_mem_nil, or_false] at hm
  rcases hm with rfl | rfl | rfl | rfl | rfl | rfl | rfl | rfl | rfl | rfl | rfl | rfl | rfl | rfl | rfl <;> rfl

theorem decodeOperands_eq {op : Op} {os : List Operand} {i : Instr} (h : decodeOperands op os = some i) :
    i.op = op ∧ i.operands = os := by
  unfold decodeOperands at h
  split at h <;> simp at h <;> subst h <;> exact ⟨rfl, rfl⟩

/-- The decoder finds an operation for an op code exactly where the code is assigned (R67). -/
theorem opcodeAssigned_eq (c : Command) : c.opcodeAssigned = (decodeOpcode c.opcode).isSome := by
  rw [Bool.eq_iff_iff]
  simp [Command.opcodeAssigned, decodeOpcode, Option.isSome_map, commandForms, opcodeMap, List.find?_isSome]

/-- The decoder takes the operands of an assigned op code exactly where they are those its row lists (R66). -/
theorem operandsAsListed_eq (c : Command) {op : Op} (h : decodeOpcode c.opcode = some op) :
    c.operandsAsListed = (decodeOperands op c.operands).isSome := by
  have hc := decodeOpcode_code h
  obtain ⟨b, os⟩ := c
  simp only at hc h ⊢
  subst hc
  cases op <;> simp [Command.operandsAsListed, commandForms, Op.code] <;>
    (rcases os with _ | ⟨o, _ | ⟨o', _ | ⟨o'', os⟩⟩⟩ <;> (try cases o) <;> (try cases o') <;>
      simp [decodeOperands, Operand.kind])

end Sys2Proof
end

