-- ==== Sys2Proof/Laws/State.lean ====
section
/-! SUPPORT. What each update of State does to each field: one lemma per field per update. -/

namespace Sys2Proof.Machine

@[simp] theorem bufAppend_params (b : Byte) (s : State) : (bufAppend b s).params = s.params := rfl
@[simp] theorem bufAppend_buf (b : Byte) (s : State) : (bufAppend b s).buf = s.buf ++ [b] := rfl
@[simp] theorem bufAppend_ovf (b : Byte) (s : State) : (bufAppend b s).ovf = s.ovf := rfl
@[simp] theorem bufAppend_pending (b : Byte) (s : State) : (bufAppend b s).pending = s.pending := rfl
@[simp] theorem bufAppend_results (b : Byte) (s : State) : (bufAppend b s).results = s.results := rfl

@[simp] theorem bufDrop_params (n : Nat) (s : State) : (bufDrop n s).params = s.params := rfl
@[simp] theorem bufDrop_buf (n : Nat) (s : State) : (bufDrop n s).buf = s.buf.drop n := rfl
@[simp] theorem bufDrop_ovf (n : Nat) (s : State) : (bufDrop n s).ovf = s.ovf := rfl
@[simp] theorem bufDrop_pending (n : Nat) (s : State) : (bufDrop n s).pending = s.pending := rfl
@[simp] theorem bufDrop_results (n : Nat) (s : State) : (bufDrop n s).results = s.results := rfl

@[simp] theorem bufClear_params (s : State) : (bufClear s).params = s.params := rfl
@[simp] theorem bufClear_buf (s : State) : (bufClear s).buf = [] := rfl
@[simp] theorem bufClear_ovf (s : State) : (bufClear s).ovf = s.ovf := rfl
@[simp] theorem bufClear_pending (s : State) : (bufClear s).pending = s.pending := rfl
@[simp] theorem bufClear_results (s : State) : (bufClear s).results = s.results := rfl

@[simp] theorem setOvf_params (s : State) : (setOvf s).params = s.params := rfl
@[simp] theorem setOvf_buf (s : State) : (setOvf s).buf = s.buf := rfl
@[simp] theorem setOvf_ovf (s : State) : (setOvf s).ovf = true := rfl
@[simp] theorem setOvf_pending (s : State) : (setOvf s).pending = s.pending := rfl
@[simp] theorem setOvf_results (s : State) : (setOvf s).results = s.results := rfl

@[simp] theorem clearOvf_params (s : State) : (clearOvf s).params = s.params := rfl
@[simp] theorem clearOvf_buf (s : State) : (clearOvf s).buf = s.buf := rfl
@[simp] theorem clearOvf_ovf (s : State) : (clearOvf s).ovf = false := rfl
@[simp] theorem clearOvf_pending (s : State) : (clearOvf s).pending = s.pending := rfl
@[simp] theorem clearOvf_results (s : State) : (clearOvf s).results = s.results := rfl

@[simp] theorem deliver_params (r : Result) (s : State) : (deliver r s).params = s.params := rfl
@[simp] theorem deliver_buf (r : Result) (s : State) : (deliver r s).buf = s.buf := rfl
@[simp] theorem deliver_ovf (r : Result) (s : State) : (deliver r s).ovf = s.ovf := rfl
@[simp] theorem deliver_pending (r : Result) (s : State) : (deliver r s).pending = s.pending := rfl
@[simp] theorem deliver_results (r : Result) (s : State) : (deliver r s).results = s.results ++ [r] := rfl

@[simp] theorem placeNext_params (c : Command) (s : State) : (placeNext c s).params = s.params := rfl
@[simp] theorem placeNext_buf (c : Command) (s : State) : (placeNext c s).buf = s.buf := rfl
@[simp] theorem placeNext_ovf (c : Command) (s : State) : (placeNext c s).ovf = s.ovf := rfl
@[simp] theorem placeNext_pending (c : Command) (s : State) : (placeNext c s).pending = c :: s.pending := rfl
@[simp] theorem placeNext_results (c : Command) (s : State) : (placeNext c s).results = s.results := rfl

@[simp] theorem hostIssues_params (c : Command) (s : State) : (hostIssues c s).params = s.params := rfl
@[simp] theorem hostIssues_buf (c : Command) (s : State) : (hostIssues c s).buf = s.buf := rfl
@[simp] theorem hostIssues_ovf (c : Command) (s : State) : (hostIssues c s).ovf = s.ovf := rfl
@[simp] theorem hostIssues_pending (c : Command) (s : State) : (hostIssues c s).pending = s.pending ++ [c] := rfl
@[simp] theorem hostIssues_results (c : Command) (s : State) : (hostIssues c s).results = s.results := rfl

end Sys2Proof.Machine
end

