-- ==== Sys2Proof/Laws/Ops.lean ====
section
/-! SUPPORT. What each shared operation does, said once. -/

namespace Sys2Proof.Machine

theorem ret_eq (v : Value) (s : State) : ret v s = .next (deliver (.ok v) s) := rfl

theorem raise_eq (e : ErrorInfo) (s : State) : raise e s = .next (deliver (.error e) s) := rfl

theorem takeCommand_nil {s : State} (h : s.pending = []) : takeCommand s = none := by
  simp [takeCommand, h]

theorem takeCommand_cons {s : State} {c : Command} {rest : List Command} (h : s.pending = c :: rest) :
    takeCommand s = some (c, { s with pending := rest }) := by
  simp [takeCommand, h]

theorem needTxBuilder_eq (s : State) (k : Outcome) :
    (s.params.hasTxBuilder = true ∧ needTxBuilder s k = k) ∨
    (s.params.hasTxBuilder = false ∧ needTxBuilder s k = raise .noTx s) := by
  cases h : s.params.hasTxBuilder <;> simp [needTxBuilder, h]

theorem needFits_eq (bs : List Byte) (s : State) (k : Outcome) :
    (bs.length ≤ 255 ∧ needFits bs s k = k) ∨
    (255 < bs.length ∧ needFits bs s k = raise (.len bs.length) s) := by
  by_cases h : bs.length > 255
  · exact .inr ⟨h, by simp [needFits, h]⟩
  · exact .inl ⟨by omega, by simp [needFits, h]⟩

theorem needOneByte_eq (p : List Byte) (s : State) (k : Byte → Outcome) :
    (∃ b, p = [b] ∧ needOneByte p s k = k b) ∨
    (p.length ≠ 1 ∧ needOneByte p s k = raise (.payload p.length) s) := by
  match p with
  | [] => exact .inr ⟨by simp, rfl⟩
  | [b] => exact .inl ⟨b, rfl, rfl⟩
  | _ :: _ :: _ => exact .inr ⟨by simp, rfl⟩

/-! ### Sums and slices -/

@[simp] theorem byteSum_nil : byteSum [] = 0 := rfl

@[simp] theorem byteSum_cons (b : Byte) (s : List Byte) : byteSum (b :: s) = b.toNat + byteSum s := by
  simp [byteSum]

@[simp] theorem byteSum_append (s t : List Byte) : byteSum (s ++ t) = byteSum s + byteSum t := by
  simp [byteSum]

theorem sum8_toNat (s : List Byte) : (sum8 s).toNat = byteSum s % 256 := by
  simp [sum8]

theorem lengthByte_toNat {s : List Byte} (h : s.length ≤ 255) : (lengthByte s).toNat = s.length := by
  simp only [lengthByte, BitVec.toNat_ofNat]; omega

theorem slice_length (s : List Byte) (a b : Nat) : (slice s a b).length = min (b - a) (s.length - a) := by
  simp [slice]

theorem byteAt_of_lt {s : List Byte} {i : Nat} (h : i < s.length) : byteAt s i = s[i] := by
  simp [byteAt, List.getD, h]

theorem getElem?_eq_some_byteAt {s : List Byte} {i : Nat} (h : i < s.length) : s[i]? = some (byteAt s i) := by
  rw [byteAt_of_lt h, List.getElem?_eq_getElem h]

theorem byteAt_drop (s : List Byte) (n i : Nat) : byteAt (s.drop n) i = byteAt s (n + i) := by
  simp [byteAt, List.getD]

theorem byteAt_append_left {s t : List Byte} {i : Nat} (h : i < s.length) : byteAt (s ++ t) i = byteAt s i := by
  simp [byteAt, List.getD, List.getElem?_append_left h]

theorem slice_drop (s : List Byte) (n a b : Nat) : slice (s.drop n) a b = slice s (n + a) (n + b) := by
  simp only [slice, List.drop_drop]; congr 1; omega

theorem slice_append_left {s : List Byte} (t : List Byte) {a b : Nat} (h : b ≤ s.length) :
    slice (s ++ t) a b = slice s a b := by
  rcases Nat.lt_or_ge b a with hab | hab
  · simp [slice, Nat.sub_eq_zero_of_le (Nat.le_of_lt hab)]
  · rw [slice, List.drop_append_of_le_length (by omega), List.take_append_of_le_length (by simp; omega), slice]

/-! ### The buffer keeps its form -/

theorem memory_wf_nil (cap : Capacity) : Memory.wf cap [] = true := by
  cases cap <;> simp [Memory.wf]

theorem memory_wf_drop {cap : Capacity} {m : Memory} (n : Nat) (h : Memory.wf cap m = true) :
    Memory.wf cap (m.drop n) = true := by
  cases cap with
  | unbounded => rfl
  | bounded c => simp only [Memory.wf, decide_eq_true_eq, List.length_drop] at h ⊢; omega

/-- Every buffer primitive keeps `|BUF| ≤ BUF_CAP`: an append only where there is room, a drop, a clear. -/
theorem buf_ops_keep_wf (s : State) (h : Memory.wf s.params.bufCap s.buf = true) :
    (∀ b, hasRoom s = true → Memory.wf s.params.bufCap (bufAppend b s).buf = true) ∧
    (∀ n, Memory.wf s.params.bufCap (bufDrop n s).buf = true) ∧
    Memory.wf s.params.bufCap (bufClear s).buf = true := by
  refine ⟨fun b hr => ?_, fun n => memory_wf_drop n h, memory_wf_nil _⟩
  revert hr
  cases hc : s.params.bufCap with
  | unbounded => intro _; rfl
  | bounded c => simp only [hasRoom, hc, Memory.wf, decide_eq_true_eq, bufAppend_buf, List.length_append,
      List.length_singleton]; omega

/-- The pairs of a buffer determine it: equal buffers are equal data, and the other way round. -/
theorem memory_cells_inj {m m' : Memory} (h : m.cells = m'.cells) : m = m' := by
  have key : ∀ l : List Byte, (Memory.cells l).map Prod.snd = l := by
    intro l
    simp [Memory.cells, List.map_map, Function.comp_def]
  rw [← key m, h, key m']

theorem reset_memory_wf (p : Params) : Memory.wf p.bufCap (State.resetWith p).buf = true := memory_wf_nil _

end Sys2Proof.Machine
end

