-- ==== Sys2Proof/Laws/FrameCodec.lean ====
section
/-! SUPPORT. The laws of the magic tag and of the verdict function. -/

namespace Sys2Proof.Machine

theorem tagAt_iff_magic {s : List Byte} {p : Nat} : tagAt s p ↔ (s.drop p).take 6 = magic := Iff.rfl

theorem tagAt_length {s : List Byte} {p : Nat} (h : tagAt s p) : p + 6 ≤ s.length := by
  have := congrArg List.length h
  simp at this
  omega

theorem tagAt_drop {s : List Byte} {n p : Nat} : tagAt (s.drop n) p ↔ tagAt s (n + p) := by
  simp [tagAt, List.drop_drop]

theorem tagAt_append_left {s : List Byte} (t : List Byte) {p : Nat} (h : p + 6 ≤ s.length) :
    tagAt (s ++ t) p ↔ tagAt s p := by
  rw [tagAt, tagAt, List.drop_append_of_le_length (by omega), List.take_append_of_le_length (by simp; omega)]

/-- Two occurrences of the tag never overlap (R48). -/
theorem tagAt_no_overlap {s : List Byte} {p k : Nat} (h₀ : tagAt s p) (h₁ : tagAt s (p + k)) (hk : 0 < k) : 6 ≤ k := by
  by_contra hlt
  have e₀ : ∀ j, j < 6 → s[p + j]? = [0x49#8, 0x4D#8, 0x50#8, 0x52#8, 0x4F#8, 0x56#8][j]? := by
    intro j hj
    rw [← h₀, List.getElem?_take_of_lt hj, List.getElem?_drop]
  have e₁ : s[p + k + 0]? = [0x49#8, 0x4D#8, 0x50#8, 0x52#8, 0x4F#8, 0x56#8][0]? := by
    rw [← h₁, List.getElem?_take_of_lt (by omega), List.getElem?_drop]
  have e₂ := e₀ k (by omega)
  rw [Nat.add_zero, e₂] at e₁
  revert e₁
  have : k = 1 ∨ k = 2 ∨ k = 3 ∨ k = 4 ∨ k = 5 := by omega
  rcases this with h | h | h | h | h <;> subst h <;> decide

/-- The precondition test is the precondition (R78). -/
theorem startOk_iff {s : List Byte} {q : Nat} : startOk s q = true ↔ tagBegins s q := by
  simp only [startOk, Bool.and_eq_true, decide_eq_true_eq, beq_iff_eq, tagBegins]
  refine and_congr_right fun hq => ?_
  have hl : min (q + 6) s.length - q = min 6 (s.length - q) := by omega
  rw [slice, hl]
  constructor
  · intro h j hj hlt
    have := congrArg (fun l => l[j]?) h
    beta_reduce at this
    rw [List.getElem?_take_of_lt (by omega), List.getElem?_take_of_lt (by omega), List.getElem?_drop] at this
    exact this
  · intro h
    apply List.ext_getElem?
    intro j
    by_cases hj : j < min 6 (s.length - q)
    · rw [List.getElem?_take_of_lt hj, List.getElem?_take_of_lt hj, List.getElem?_drop]
      exact h j (by omega) (by omega)
    · rw [List.getElem?_eq_none (by simp; omega), List.getElem?_eq_none (by simp; omega)]

/-- A whole tag meets the precondition, so the scan never meets E_START (R78). -/
theorem startOk_of_tagAt {s : List Byte} {p : Nat} (h : tagAt s p) : startOk s p = true := by
  refine startOk_iff.2 ⟨by have := tagAt_length h; omega, fun j hj _ => ?_⟩
  rw [← h, List.getElem?_take_of_lt hj, List.getElem?_drop]

/-- When the verdict is Valid, and what it carries (R79, R84). -/
theorem tryDecode_valid_iff {v : VersionCheckAt} {s : List Byte} {q : Nat} {f : Frame} {n : Nat} :
    tryDecode v s q = .valid f n ↔
      10 + (candidateLength s q).toNat ≤ s.length - q ∧ candidateVersion s q = wireVersion ∧
      sum8 (candidateCovered s q) = candidateChecksum s q ∧ f = candidateFrame s q ∧
      n = 10 + (candidateLength s q).toNat := by
  unfold tryDecode
  split
  · exact ⟨fun h => (nomatch h), fun h => by omega⟩
  split
  next h => exact ⟨fun h => (nomatch h), fun h' => absurd h'.2.1 h.2⟩
  split
  · exact ⟨fun h => (nomatch h), fun h => by omega⟩
  split
  next h => exact ⟨fun h => (nomatch h), fun h' => absurd h'.2.1 h⟩
  split
  next h => exact ⟨fun h => (nomatch h), fun h' => absurd h'.2.2.1 h⟩
  next h₁ h₂ h₃ h₄ h₅ =>
    simp only [Verdict.valid.injEq]
    constructor
    · rintro ⟨rfl, rfl⟩
      exact ⟨by omega, not_not.1 h₄, not_not.1 h₅, rfl, rfl⟩
    · rintro ⟨_, _, _, rfl, rfl⟩
      exact ⟨rfl, rfl⟩

/-- When the verdict is NeedMoreData (R80). -/
theorem tryDecode_needMoreData_iff {v : VersionCheckAt} {s : List Byte} {q : Nat} :
    tryDecode v s q = .needMoreData ↔
      s.length - q < 9 ∨ (s.length - q < 10 + (candidateLength s q).toNat ∧
        ¬ (v = .atPrefix ∧ candidateVersion s q ≠ wireVersion)) := by
  unfold tryDecode
  split
  next h => simp [h]
  next h₁ =>
    split
    next h => simp [h₁, h]
    next h₂ =>
      split
      next h => simp only [true_iff]; exact .inr ⟨h, h₂⟩
      next h₃ =>
        have : ¬ (s.length - q < 9 ∨ (s.length - q < 10 + (candidateLength s q).toNat ∧
            ¬ (v = .atPrefix ∧ candidateVersion s q ≠ wireVersion))) := by tauto
        split
        · simp only [reduceCtorEq, false_iff]; exact this
        · split <;> simp only [reduceCtorEq, false_iff] <;> exact this

/-- When the verdict is Invalid (R81, R82). -/
theorem tryDecode_invalid_iff {v : VersionCheckAt} {s : List Byte} {q : Nat} :
    tryDecode v s q = .invalid ↔
      (9 ≤ s.length - q ∧ v = .atPrefix ∧ candidateVersion s q ≠ wireVersion) ∨
      (10 + (candidateLength s q).toNat ≤ s.length - q ∧
        (candidateVersion s q ≠ wireVersion ∨ sum8 (candidateCovered s q) ≠ candidateChecksum s q)) := by
  unfold tryDecode
  split
  next h => simp only [reduceCtorEq, false_iff]; omega
  next h₁ =>
    split
    next h => simp only [true_iff]; exact .inl ⟨by omega, h⟩
    next h₂ =>
      split
      next h => simp only [reduceCtorEq, false_iff]; rintro (⟨_, h'⟩ | ⟨h', _⟩); exacts [h₂ h', by omega]
      next h₃ =>
        split
        next h => simp only [true_iff]; exact .inr ⟨by omega, .inl h⟩
        next h₄ =>
          split
          next h => simp only [true_iff]; exact .inr ⟨by omega, .inr h⟩
          next h₅ => simp only [reduceCtorEq, false_iff]; tauto

/-- The verdict is of the bytes from `q` on: dropping bytes before the candidate changes nothing (R85 (b)). -/
theorem tryDecode_drop (v : VersionCheckAt) (s : List Byte) (n q : Nat) :
    tryDecode v (s.drop n) q = tryDecode v s (n + q) := by
  have e₁ : candidateVersion (s.drop n) q = candidateVersion s (n + q) := by
    simp [candidateVersion, byteAt_drop, Nat.add_assoc]
  have e₂ : candidateLength (s.drop n) q = candidateLength s (n + q) := by
    simp [candidateLength, byteAt_drop, Nat.add_assoc]
  have e₃ : candidateCovered (s.drop n) q = candidateCovered s (n + q) := by
    simp [candidateCovered, slice_drop, e₂, Nat.add_assoc]
  have e₄ : candidateChecksum (s.drop n) q = candidateChecksum s (n + q) := by
    simp [candidateChecksum, byteAt_drop, e₂, Nat.add_assoc]
  have e₅ : candidateFrame (s.drop n) q = candidateFrame s (n + q) := by
    simp [candidateFrame, e₁, e₂, e₄, candidateType, candidatePayload, slice_drop, byteAt_drop, Nat.add_assoc]
  have e₆ : (s.drop n).length - q = s.length - (n + q) := by simp; omega
  simp only [tryDecode, e₁, e₂, e₃, e₄, e₅, e₆]

/-- The fields of a full candidate do not depend on what follows it. -/
theorem candidate_append {s : List Byte} (t : List Byte) {q : Nat} (h : 9 ≤ s.length - q) :
    candidateVersion (s ++ t) q = candidateVersion s q ∧ candidateType (s ++ t) q = candidateType s q ∧
    candidateLength (s ++ t) q = candidateLength s q ∧
    (10 + (candidateLength s q).toNat ≤ s.length - q →
      candidateCovered (s ++ t) q = candidateCovered s q ∧ candidateChecksum (s ++ t) q = candidateChecksum s q ∧
      candidateFrame (s ++ t) q = candidateFrame s q) := by
  have e₁ : candidateVersion (s ++ t) q = candidateVersion s q := byteAt_append_left (by omega)
  have e₂ : candidateType (s ++ t) q = candidateType s q := byteAt_append_left (by omega)
  have e₃ : candidateLength (s ++ t) q = candidateLength s q := byteAt_append_left (by omega)
  refine ⟨e₁, e₂, e₃, fun hf => ?_⟩
  have e₄ : candidateChecksum (s ++ t) q = candidateChecksum s q := by
    rw [candidateChecksum, candidateChecksum, e₃]; exact byteAt_append_left (by omega)
  refine ⟨by rw [candidateCovered, candidateCovered, e₃]; exact slice_append_left t (by omega), e₄, ?_⟩
  rw [candidateFrame, candidateFrame, e₁, e₂, e₃, e₄, candidatePayload, candidatePayload, e₃,
    slice_append_left t (by omega)]

/-- Only NeedMoreData can change when bytes are appended (R85 (a)). -/
theorem tryDecode_append {v : VersionCheckAt} {s : List Byte} (t : List Byte) {q : Nat}
    (h : tryDecode v s q ≠ .needMoreData) : tryDecode v (s ++ t) q = tryDecode v s q := by
  have h9 : 9 ≤ s.length - q := by
    by_contra h'
    exact h (tryDecode_needMoreData_iff.2 (.inl (by omega)))
  obtain ⟨e₁, -, e₃, e₄⟩ := candidate_append t h9
  have hl : (s ++ t).length - q = s.length - q + t.length := by simp; omega
  cases hv : tryDecode v s q with
  | needMoreData => exact absurd hv h
  | valid f n =>
    obtain ⟨hf, hver, hsum, rfl, rfl⟩ := tryDecode_valid_iff.1 hv
    obtain ⟨e₅, e₆, e₇⟩ := e₄ hf
    exact tryDecode_valid_iff.2 ⟨by rw [e₃]; omega, by rw [e₁, hver], by rw [e₅, e₆, hsum], e₇.symm, by rw [e₃]⟩
  | invalid =>
    refine tryDecode_invalid_iff.2 ?_
    rw [e₁, e₃]
    rcases tryDecode_invalid_iff.1 hv with ⟨ha, hb⟩ | ⟨ha, hb⟩
    · exact .inl ⟨by omega, hb⟩
    · obtain ⟨e₅, e₆, -⟩ := e₄ ha
      exact .inr ⟨by omega, by rw [e₅, e₆]; exact hb⟩

end Sys2Proof.Machine
end

