-- ==== Sys2Proof/Laws/Demux.lean ====
section
/-! SUPPORT. The laws of the demultiplexer's operations: feeding, finding the tag, one scan, the drain loop. -/

namespace Sys2Proof.Machine

/-! ### Feeding -/

/-- How many of `n` bytes fed to a buffer of `len` bytes are kept. -/
def keptBytes (cap : Capacity) (len n : Nat) : Nat :=
  match cap with
  | .unbounded => n
  | .bounded c => min n (c - len)

theorem keptBytes_le (cap : Capacity) (len n : Nat) : keptBytes cap len n ≤ n := by
  cases cap <;> simp only [keptBytes] <;> omega

/-- A FEED keeps the first bytes that fit, counts the others and marks their loss (R104, R105). -/
theorem feedBytes_eq (bs : List Byte) : ∀ (s : State) (d : Nat),
    feedBytes bs s d =
      ({ s with
          buf := s.buf ++ bs.take (keptBytes s.params.bufCap s.buf.length bs.length)
          ovf := s.ovf || decide (keptBytes s.params.bufCap s.buf.length bs.length < bs.length) },
        d + (bs.length - keptBytes s.params.bufCap s.buf.length bs.length)) := by
  induction bs with
  | nil => intro s d; simp [feedBytes]
  | cons b bs ih =>
    intro s d
    cases hc : s.params.bufCap with
    | unbounded =>
      have hr : hasRoom s = true := by simp [hasRoom, hc]
      simp [feedBytes, hr, ih, hc, keptBytes, bufAppend]
    | bounded c =>
      by_cases hl : s.buf.length < c
      · have hr : hasRoom s = true := by simp [hasRoom, hc, hl]
        have hk : min (bs.length + 1) (c - s.buf.length) = min bs.length (c - (s.buf.length + 1)) + 1 := by omega
        simp [feedBytes, hr, ih, hc, keptBytes, bufAppend, hk]
      · have hr : hasRoom s = false := by simp [hasRoom, hc, hl]
        have hk : c - s.buf.length = 0 := by omega
        simp [feedBytes, hr, ih, hc, keptBytes, setOvf, hk]
        omega

/-! ### Finding the tag -/

theorem findMagic_eq_some_iff {s : List Byte} : ∀ {p : Nat}, findMagic s = some p ↔ firstTag s p := by
  induction s with
  | nil =>
    intro p
    simp [findMagic, firstTag, tagAt]
  | cons b bs ih =>
    intro p
    have h0 : tagAt (b :: bs) 0 ↔ (b :: bs).take 6 = magic := Iff.rfl
    have hs : ∀ j, tagAt (b :: bs) (j + 1) ↔ tagAt bs j := fun j => Iff.rfl
    unfold findMagic
    split
    next h =>
      constructor
      · rintro ⟨⟩
        exact ⟨h0.2 h, fun j hj => by omega⟩
      · rintro ⟨_, hmin⟩
        rcases Nat.eq_zero_or_pos p with rfl | hp
        · rfl
        · exact absurd (h0.2 h) (hmin 0 hp)
    next h =>
      cases p with
      | zero =>
        simp only [Option.map_eq_some_iff, Nat.add_eq_zero_iff, one_ne_zero, and_false, exists_false, false_iff]
        exact fun hf => h (h0.1 hf.1)
      | succ p =>
        simp only [Option.map_eq_some_iff, Nat.add_right_cancel_iff, exists_eq_right, ih]
        constructor
        · rintro ⟨ht, hmin⟩
          refine ⟨(hs p).2 ht, fun j hj => ?_⟩
          cases j with
          | zero => exact fun h' => h (h0.1 h')
          | succ j => exact fun h' => hmin j (by omega) ((hs j).1 h')
        · rintro ⟨ht, hmin⟩
          exact ⟨(hs p).1 ht, fun j hj h' => hmin (j + 1) (by omega) ((hs j).2 h')⟩

theorem findMagic_eq_none_iff {s : List Byte} : findMagic s = none ↔ tagFree s := by
  constructor
  · intro h p
    induction p using Nat.strong_induction_on with
    | _ p ih =>
      intro ht
      have := findMagic_eq_some_iff.2 ⟨ht, fun j hj => ih j hj⟩
      simp [h] at this
  · intro h
    cases hf : findMagic s with
    | none => rfl
    | some p => exact absurd (findMagic_eq_some_iff.1 hf).1 (h p)

/-- Appending bytes creates no earlier tag (R41). -/
theorem findMagic_append {s : List Byte} (t : List Byte) {p : Nat} (h : findMagic s = some p) :
    findMagic (s ++ t) = some p := by
  obtain ⟨ht, hmin⟩ := findMagic_eq_some_iff.1 h
  have hl := tagAt_length ht
  exact findMagic_eq_some_iff.2 ⟨(tagAt_append_left t hl).2 ht,
    fun j hj h' => hmin j hj ((tagAt_append_left t (by omega)).1 h')⟩

/-- Dropping bytes before the first tag moves it by as many. -/
theorem firstTag_drop {s : List Byte} {p n : Nat} (h : firstTag s (n + p)) : firstTag (s.drop n) p :=
  ⟨tagAt_drop.2 h.1, fun j hj h' => h.2 (n + j) (by omega) (tagAt_drop.1 h')⟩

/-! ### One scan (R108) -/

/-- Everything one iteration of the scan can give. -/
theorem scan_cases (v : VersionCheckAt) (buf : List Byte) :
    (tagFree buf ∧ scan v buf = (.stop .noMagic, 0)) ∨
    ∃ p, firstTag buf p ∧
      ((tryDecode v buf p = .needMoreData ∧ scan v buf = (.stop .needMoreData, 0)) ∨
       (tryDecode v buf p = .invalid ∧ scan v buf = (.discard, 1)) ∨
       ∃ f n, tryDecode v buf p = .valid f n ∧ scan v buf = (.emit f, p + n)) := by
  unfold scan
  cases hf : findMagic buf with
  | none => exact .inl ⟨findMagic_eq_none_iff.1 hf, rfl⟩
  | some p =>
    refine .inr ⟨p, findMagic_eq_some_iff.1 hf, ?_⟩
    cases hv : tryDecode v buf p with
    | needMoreData => exact .inl ⟨rfl, by simp only [hv]⟩
    | invalid => exact .inr (.inl ⟨rfl, by simp only [hv]⟩)
    | valid f n => exact .inr (.inr ⟨f, n, rfl, by simp only [hv]⟩)

theorem scan_of_tagFree {v : VersionCheckAt} {buf : List Byte} (h : tagFree buf) : scan v buf = (.stop .noMagic, 0) := by
  simp [scan, findMagic_eq_none_iff.2 h]

theorem scan_of_firstTag {v : VersionCheckAt} {buf : List Byte} {p : Nat} (h : firstTag buf p) :
    scan v buf = (match tryDecode v buf p with
      | .needMoreData => (.stop .needMoreData, 0)
      | .invalid => (.discard, 1)
      | .valid f n => (.emit f, p + n)) := by
  cases hv : tryDecode v buf p <;> simp only [scan, findMagic_eq_some_iff.2 h, hv]

/-- A scan that does not stop removes at least one byte, and no more than there are (R113). -/
theorem scan_progress {v : VersionCheckAt} {buf : List Byte} (h : ∀ r, (scan v buf).1 ≠ .stop r) :
    1 ≤ (scan v buf).2 ∧ (scan v buf).2 ≤ buf.length := by
  rcases scan_cases v buf with ⟨_, e⟩ | ⟨p, hp, ⟨_, e⟩ | ⟨_, e⟩ | ⟨f, n, hv, e⟩⟩
  · exact absurd (by rw [e]) (h .noMagic)
  · exact absurd (by rw [e]) (h .needMoreData)
  · have := tagAt_length hp.1
    rw [e]; exact ⟨by simp, by simp only; omega⟩
  · obtain ⟨hf, -, -, -, rfl⟩ := tryDecode_valid_iff.1 hv
    have := tagAt_length hp.1
    rw [e]; exact ⟨by simp only; omega, by simp only; omega⟩

/-- A scan that stops removes nothing (R108). -/
theorem scan_stop {v : VersionCheckAt} {buf : List Byte} {r : StopReason} (h : (scan v buf).1 = .stop r) :
    scan v buf = (.stop r, 0) := by
  rcases scan_cases v buf with ⟨_, e⟩ | ⟨p, hp, ⟨_, e⟩ | ⟨_, e⟩ | ⟨f, n, hv, e⟩⟩ <;> rw [e] at h <;> simp_all

/-- A scan that does not stop depends only on bytes up to the end of its candidate (R41). -/
theorem scan_append {v : VersionCheckAt} {buf : List Byte} (t : List Byte) (h : ∀ r, (scan v buf).1 ≠ .stop r) :
    scan v (buf ++ t) = scan v buf := by
  rcases scan_cases v buf with ⟨_, e⟩ | ⟨p, hp, hv⟩
  · exact absurd (by rw [e]) (h .noMagic)
  · have hp' : firstTag (buf ++ t) p := findMagic_eq_some_iff.1 (findMagic_append t (findMagic_eq_some_iff.2 hp))
    have hne : tryDecode v buf p ≠ .needMoreData := by
      intro hn
      rcases hv with ⟨_, e⟩ | ⟨h', _⟩ | ⟨f, n, h', _⟩
      · exact h _ (by rw [e])
      · simp [hn] at h'
      · simp [hn] at h'
    rw [scan_of_firstTag hp', scan_of_firstTag hp, tryDecode_append t hne]

/-! ### The drain loop (R111) -/

/-- A bound of at least |BUF| gives the drain (R113). -/
theorem drainBounded_eq (v : VersionCheckAt) : ∀ (n : Nat) (buf : List Byte), buf.length ≤ n →
    drainBounded v n buf = drainBuf v buf := by
  have key : ∀ (n m : Nat) (buf : List Byte), buf.length ≤ n → buf.length ≤ m →
      drainBounded v n buf = drainBounded v m buf := by
    have nil : ∀ n, drainBounded v n [] = { frames := [], reason := .noMagic, rest := [] } := by
      intro n; cases n <;> rfl
    intro n
    induction n with
    | zero =>
      intro m buf hn _
      rw [List.length_eq_zero_iff.1 (Nat.le_zero.1 hn), nil, nil]
    | succ n ih =>
      intro m buf hn hm
      cases m with
      | zero => rw [List.length_eq_zero_iff.1 (Nat.le_zero.1 hm), nil, nil]
      | succ m =>
        have hp := scan_progress (v := v) (buf := buf)
        unfold drainBounded
        split
        · rfl
        next k e =>
          rw [e] at hp
          have := hp (by simp)
          exact ih m _ (by simp; omega) (by simp; omega)
        next f k e =>
          rw [e] at hp
          have := hp (by simp)
          rw [ih m _ (by simp; omega) (by simp; omega)]
  intro n buf h
  exact key n buf.length buf h (Nat.le_refl _)

/-- The loop of DRAIN, without its bound (R111). -/
theorem drainBuf_eq (v : VersionCheckAt) (buf : List Byte) :
    drainBuf v buf = (match scan v buf with
      | (.stop r, _) => { frames := [], reason := r, rest := buf }
      | (.discard, k) => drainBuf v (buf.drop k)
      | (.emit f, k) => (drainBuf v (buf.drop k)).withFrame f) := by
  rw [← drainBounded_eq v (buf.length + 1) buf (by omega)]
  rcases e : scan v buf with ⟨f | _ | r, k⟩ <;> simp only [drainBounded, e]
  · rw [drainBounded_eq v _ _ (by simp)]
  · rw [drainBounded_eq v _ _ (by simp)]

theorem drainBuf_of_stop {v : VersionCheckAt} {buf : List Byte} {r : StopReason} {k : Nat} (h : scan v buf = (.stop r, k)) :
    drainBuf v buf = { frames := [], reason := r, rest := buf } := by
  rw [drainBuf_eq, h]

theorem drainBuf_of_discard {v : VersionCheckAt} {buf : List Byte} {k : Nat} (h : scan v buf = (.discard, k)) :
    drainBuf v buf = drainBuf v (buf.drop k) := by
  rw [drainBuf_eq, h]

theorem drainBuf_of_emit {v : VersionCheckAt} {buf : List Byte} {f : Frame} {k : Nat} (h : scan v buf = (.emit f, k)) :
    drainBuf v buf = (drainBuf v (buf.drop k)).withFrame f := by
  rw [drainBuf_eq, h]

/-- The induction of the drain loop, packaged once: a property of buffers that holds where the scan stops, and passes from
the shortened buffer to the whole one, holds of every buffer. -/
theorem drain_induction (v : VersionCheckAt) {P : List Byte → Prop}
    (stop : ∀ buf r, scan v buf = (.stop r, 0) → P buf)
    (discard : ∀ buf k, scan v buf = (.discard, k) → P (buf.drop k) → P buf)
    (emit : ∀ buf f k, scan v buf = (.emit f, k) → P (buf.drop k) → P buf) (buf : List Byte) : P buf := by
  have key : ∀ n (buf : List Byte), buf.length ≤ n → P buf := by
    intro n
    induction n with
    | zero =>
      intro buf h
      rw [List.length_eq_zero_iff.1 (Nat.le_zero.1 h)]
      exact stop [] .noMagic rfl
    | succ n ih =>
      intro buf h
      have hp := scan_progress (v := v) (buf := buf)
      rcases e : scan v buf with ⟨f | _ | r, k⟩
      · rw [e] at hp
        have := hp (by simp)
        exact emit buf f k e (ih _ (by simp; omega))
      · rw [e] at hp
        have := hp (by simp)
        exact discard buf k e (ih _ (by simp; omega))
      · exact stop buf r (scan_stop (by rw [e]))
  exact key buf.length buf (Nat.le_refl _)

end Sys2Proof.Machine
end

