-- ==== Sys2Proof/Laws/Rpc.lean ====
section
/-! SUPPORT. The laws of the value walk. -/

namespace Sys2Proof.Machine

theorem valueWalkBounded_eq (p : List Byte) : ∀ (n m i : Nat), p.length - i ≤ n → p.length - i ≤ m →
    valueWalkBounded p n i = valueWalkBounded p m i := by
  have done : ∀ n i, p.length - i = 0 → valueWalkBounded p n i = [] := by
    intro n i h
    cases n with
    | zero => rfl
    | succ n => simp only [valueWalkBounded]; rw [if_pos (by omega)]
  intro n
  induction n with
  | zero => intro m i hn hm; rw [done _ _ (by omega), done _ _ (by omega)]
  | succ n ih =>
    intro m i hn hm
    cases m with
    | zero => rw [done _ _ (by omega), done _ _ (by omega)]
    | succ m =>
      unfold valueWalkBounded
      split
      · rfl
      · rw [ih m _ (by omega) (by omega)]

/-- The walk, without its bound: the equation of R94. -/
theorem valueWalk_eq (p : List Byte) (i : Nat) :
    valueWalk p i =
      if i ≥ p.length then []
      else slice p (i + 1) (min (i + 1 + (byteAt p i).toNat) p.length)
        :: valueWalk p (i + 1 + (byteAt p i).toNat) := by
  rw [valueWalk, valueWalkBounded_eq p _ (p.length - i + 1) i (Nat.le_refl _) (by omega)]
  conv_lhs => unfold valueWalkBounded
  split
  · rfl
  · rw [valueWalk, valueWalkBounded_eq p _ _ _ (by omega) (Nat.le_refl _)]

end Sys2Proof.Machine
end

