-- ==== Sys2Proof/Laws/Exec.lean ====
section
/-! SUPPORT. What every operation does, said once: it completes, with a new buffer, a new flag and one result, which depend on
the parameters, the buffer and the flag alone. -/

namespace Sys2Proof.Machine

/-- What an operation does to BUF and OVF, and the result it returns. -/
structure Effect where
  buf : Memory
  ovf : Bool
  result : Result

/-- A state after an effect: the parameters and the commands still to be taken are unchanged. -/
def Effect.apply (e : Effect) (s : State) : State :=
  { s with buf := e.buf, ovf := e.ovf, results := s.results ++ [e.result] }

/-- The result of an operation of the TX builder that writes the lengths of `ls`, in order, and then returns `bs`. -/
def txResult (p : Params) (ls : List (List Byte)) (bs : List Byte) : Result :=
  if p.hasTxBuilder then
    match ls.find? fun l => decide (l.length > 255) with
    | some l => .error (.len l.length)
    | none => .ok (.bytes bs)
  else .error .noTx

/-- The effect of each operation. -/
def effectOf (i : Instr) (p : Params) (buf : Memory) (ovf : Bool) : Effect :=
  match i with
  | .feed bs =>
    { buf := buf ++ bs.take (keptBytes p.bufCap buf.length bs.length)
      ovf := ovf || decide (keptBytes p.bufCap buf.length bs.length < bs.length)
      result := if bs.length - keptBytes p.bufCap buf.length bs.length = 0 then .ok .none
        else .error (.ovf (bs.length - keptBytes p.bufCap buf.length bs.length)) }
  | .step =>
    { buf := buf.drop (scan p.versionCheckAt buf).2, ovf := ovf
      result := .ok (.step (scan p.versionCheckAt buf).1) }
  | .drain =>
    { buf := (drainBuf p.versionCheckAt buf).rest, ovf := ovf
      result := .ok (.drain (drainBuf p.versionCheckAt buf).frames (drainBuf p.versionCheckAt buf).reason) }
  | .reset => { buf := [], ovf := false, result := .ok .none }
  | .status => { buf := buf, ovf := ovf, result := .ok (.status buf.length ovf) }
  | .checksum bs => { buf := buf, ovf := ovf, result := .ok (.byte (sum8 bs)) }
  | .verify bs c => { buf := buf, ovf := ovf, result := .ok (.bool (sum8 bs == c)) }
  | .findMagic bs => { buf := buf, ovf := ovf, result := .ok (.offset (findMagic bs)) }
  | .tryDecode bs start =>
    { buf := buf, ovf := ovf
      result := if startOk bs start then .ok (.verdict (tryDecode p.versionCheckAt bs start)) else .error (.start start) }
  | .decodeResult b =>
    { buf := buf, ovf := ovf
      result := if b.length < 2 then .error (.rpcShort b.length)
        else .ok (.rpcResult { command := byteAt b 0, values := valueWalk b 2 }) }
  | .decodeState b =>
    { buf := buf, ovf := ovf
      result := match b with
        | [x] => .ok (.deviceState (deviceStateOf p.stateMap x))
        | _ => .error (.payload b.length) }
  | .decodeError b =>
    { buf := buf, ovf := ovf
      result := match b with
        | [x] => .ok (.deviceError (deviceErrorOf x))
        | _ => .error (.payload b.length) }
  | .encodeFrame t b => { buf := buf, ovf := ovf, result := txResult p [b] (frameBytes t b) }
  | .encodeCommand c a => { buf := buf, ovf := ovf, result := txResult p [a] ([c, lengthByte a] ++ a) }
  | .encodeWifi ssid pass =>
    { buf := buf, ovf := ovf
      result := txResult p [ssid, pass] ([lengthByte ssid] ++ ssid ++ [lengthByte pass] ++ pass) }

/-- Every operation completes, with its effect. -/
theorem exec_eq_effect (i : Instr) (s : State) :
    exec i s = .next ((effectOf i s.params s.buf s.ovf).apply s) := by
  cases i <;> simp only [exec, effectOf]
  case feed bs =>
    simp only [execFeed, feedBytes_eq, Nat.zero_add]
    cases h : bs.length - keptBytes s.params.bufCap s.buf.length bs.length <;> rfl
  case tryDecode bs start =>
    unfold execTryDecode
    split <;> rfl
  case decodeResult b =>
    unfold execDecodeResult
    split <;> rfl
  case decodeState b =>
    match b with
    | [] => rfl
    | [_] => rfl
    | _ :: _ :: _ => rfl
  case decodeError b =>
    match b with
    | [] => rfl
    | [_] => rfl
    | _ :: _ :: _ => rfl
  case encodeFrame t b =>
    cases ht : s.params.hasTxBuilder
    · simp [execEncodeFrame, needTxBuilder, txResult, ht]; rfl
    · by_cases h : b.length > 255 <;> simp [execEncodeFrame, needTxBuilder, needFits, txResult, ht, h] <;> rfl
  case encodeCommand c a =>
    cases ht : s.params.hasTxBuilder
    · simp [execEncodeCommand, needTxBuilder, txResult, ht]; rfl
    · by_cases h : a.length > 255 <;> simp [execEncodeCommand, needTxBuilder, needFits, txResult, ht, h] <;> rfl
  case encodeWifi ssid pass =>
    cases ht : s.params.hasTxBuilder
    · simp [execEncodeWifi, needTxBuilder, txResult, ht]; rfl
    · by_cases h : ssid.length > 255
      · simp [execEncodeWifi, needTxBuilder, needFits, txResult, ht, h]; rfl
      · by_cases h' : pass.length > 255 <;>
          simp [execEncodeWifi, needTxBuilder, needFits, txResult, ht, h, h'] <;> rfl
  all_goals rfl

/-- Every operation ends (R153, R154). -/
theorem exec_ends (i : Instr) (s : State) : operationEnds i s :=
  ⟨_, exec_eq_effect i s⟩

/-- No operation's effect depends on CMD_MAP (R9). -/
theorem effectOf_cmdMap (i : Instr) (p : Params) (m : CmdMap) (buf : Memory) (ovf : Bool) :
    effectOf i { p with cmdMap := m } buf ovf = effectOf i p buf ovf := by
  cases i <;> rfl

@[simp] theorem apply_params (e : Effect) (s : State) : (e.apply s).params = s.params := rfl
@[simp] theorem apply_buf (e : Effect) (s : State) : (e.apply s).buf = e.buf := rfl
@[simp] theorem apply_ovf (e : Effect) (s : State) : (e.apply s).ovf = e.ovf := rfl
@[simp] theorem apply_pending (e : Effect) (s : State) : (e.apply s).pending = s.pending := rfl
@[simp] theorem apply_results (e : Effect) (s : State) : (e.apply s).results = s.results ++ [e.result] := rfl

/-- Running operations one after the other never stops. -/
theorem runOps_cons (i : Instr) (is : List Instr) (s : State) :
    runOps (i :: is) s = runOps is ((effectOf i s.params s.buf s.ovf).apply s) := by
  simp [runOps, onNext, exec_eq_effect]

@[simp] theorem runOps_nil (s : State) : runOps [] s = .next s := rfl

end Sys2Proof.Machine
end

