-- ==== Sys2Proof/Laws/PerInstr.lean ====
section
/-! SUPPORT. Statements made per operation: the command a host puts on the port for an operation is well formed, its op code
assigned and its operands those the op code's row lists (30_encoding.md R65, R66). -/

namespace Sys2Proof.Laws.WellFormedCommand

/-- The command of the operation is well formed, and its op code names the operation. -/
def Statement (i : Instr) : Prop :=
  (encode i).wellFormed = true ∧ decodeOpcode (encode i).opcode = some i.op

theorem feed (bs : List Byte) : Statement (.feed bs) := ⟨rfl, rfl⟩
theorem step : Statement .step := ⟨rfl, rfl⟩
theorem drain : Statement .drain := ⟨rfl, rfl⟩
theorem reset : Statement .reset := ⟨rfl, rfl⟩
theorem status : Statement .status := ⟨rfl, rfl⟩
theorem checksum (bs : List Byte) : Statement (.checksum bs) := ⟨rfl, rfl⟩
theorem verify (bs : List Byte) (c : Byte) : Statement (.verify bs c) := ⟨rfl, rfl⟩
theorem findMagic (bs : List Byte) : Statement (.findMagic bs) := ⟨rfl, rfl⟩
theorem tryDecode (bs : List Byte) (start : Nat) : Statement (.tryDecode bs start) := ⟨rfl, rfl⟩
theorem decodeResult (p : List Byte) : Statement (.decodeResult p) := ⟨rfl, rfl⟩
theorem decodeState (p : List Byte) : Statement (.decodeState p) := ⟨rfl, rfl⟩
theorem decodeError (p : List Byte) : Statement (.decodeError p) := ⟨rfl, rfl⟩
theorem encodeFrame (t : Byte) (p : List Byte) : Statement (.encodeFrame t p) := ⟨rfl, rfl⟩
theorem encodeCommand (c : Byte) (a : List Byte) : Statement (.encodeCommand c a) := ⟨rfl, rfl⟩
theorem encodeWifi (ssid pass : List Byte) : Statement (.encodeWifi ssid pass) := ⟨rfl, rfl⟩

end Sys2Proof.Laws.WellFormedCommand
end

