-- ==== Sys2Proof/Machine/Assembler.lean ====
section
/-! DEFINITION. The written form of programs (30_encoding.md R70): a line is `MNEMONIC operand, operand`; a `u8` is `0xNN`, a
`Nat` decimal, a byte sequence `[NN NN ...]` or `"..."`; `;` starts a comment and `=>` the result of a test program's line.
The encoding of a line is its op code followed by its operands (R65). A notation of the host's, read by no operation (log
entry 14). -/

namespace Sys2Proof.Machine

/-- One line of a program: nothing but a comment, an operation, or a pseudo-operation (R70, R71). -/
inductive Line where
  | blank
  | op (i : Instr)
  | pseudo (p : PseudoOp)
  deriving DecidableEq, Repr

/-- The value of a hex digit. -/
def hexDigit (c : Char) : Option Nat :=
  if 48 ≤ c.toNat ∧ c.toNat ≤ 57 then some (c.toNat - 48)
  else if 65 ≤ c.toNat ∧ c.toNat ≤ 70 then some (c.toNat - 55)
  else if 97 ≤ c.toNat ∧ c.toNat ≤ 102 then some (c.toNat - 87)
  else none

/-- The byte written `NN` (R10). -/
def hexByte (a b : Char) : Option Byte :=
  match hexDigit a, hexDigit b with
  | some x, some y => some (BitVec.ofNat 8 (16 * x + y))
  | _, _ => none

/-- The bytes of `NN NN ...]` and what follows the bracket (R70). -/
def hexSequence : List Char → Option (List Byte × List Char)
  | a :: b :: ']' :: rest =>
    match hexByte a b with
    | some x => some ([x], rest)
    | none => none
  | a :: b :: ' ' :: rest =>
    match hexByte a b, hexSequence rest with
    | some x, some (xs, rest') => some (x :: xs, rest')
    | _, _ => none
  | _ => none

/-- The ASCII codes of a quoted string and what follows its closing quote (R70); `\r` and `\n` stand for 0D and 0A as in the
spec's vectors (93_implementation_defined.md G2). -/
def quotedBytes : List Char → Option (List Byte × List Char)
  | '"' :: rest => some ([], rest)
  | '\\' :: 'r' :: rest =>
    match quotedBytes rest with
    | some (xs, rest') => some (0x0D#8 :: xs, rest')
    | none => none
  | '\\' :: 'n' :: rest =>
    match quotedBytes rest with
    | some (xs, rest') => some (0x0A#8 :: xs, rest')
    | none => none
  | c :: rest =>
    if c.toNat < 128 then
      match quotedBytes rest with
      | some (xs, rest') => some (BitVec.ofNat 8 c.toNat :: xs, rest')
      | none => none
    else none
  | [] => none

/-- The number that decimal digits write, continuing from `acc`, and what follows them (R70). -/
def decimal : Nat → List Char → Nat × List Char
  | acc, [] => (acc, [])
  | acc, c :: rest =>
    if 48 ≤ c.toNat ∧ c.toNat ≤ 57 then decimal (10 * acc + (c.toNat - 48)) rest else (acc, c :: rest)

/-- One operand and what follows it (R70). -/
def parseOperand : List Char → Option (Operand × List Char)
  | '0' :: 'x' :: a :: b :: rest =>
    match hexByte a b with
    | some x => some (.u8 x, rest)
    | none => none
  | '[' :: ']' :: rest => some (.bytes [], rest)
  | '[' :: rest =>
    match hexSequence rest with
    | some (xs, rest') => some (.bytes xs, rest')
    | none => none
  | '"' :: rest =>
    match quotedBytes rest with
    | some (xs, rest') => some (.bytes xs, rest')
    | none => none
  | c :: rest =>
    if 48 ≤ c.toNat ∧ c.toNat ≤ 57 then
      let r := decimal 0 (c :: rest)
      some (.nat r.1, r.2)
    else none
  | [] => none

/-- Nothing of the operation is left: the line, a comment or a result begins here (R70). -/
def lineEnds : List Char → Bool
  | [] => true
  | ';' :: _ => true
  | '=' :: '>' :: _ => true
  | _ => false

/-- Leave out blanks. -/
def skipBlanks (cs : List Char) : List Char :=
  cs.dropWhile (· == ' ')

/-- The operands of a line, separated by commas, at most `n` of them (R70). -/
def parseOperands : Nat → List Char → Option (List Operand)
  | 0, _ => none
  | n + 1, cs =>
    match parseOperand cs with
    | none => none
    | some (o, rest) =>
      match skipBlanks rest with
      | ',' :: rest' =>
        match parseOperands n (skipBlanks rest') with
        | some os => some (o :: os)
        | none => none
      | rest' => if lineEnds rest' then some [o] else none

/-- The mnemonics (R66). -/
def mnemonics : List (List Char × Op) :=
  [ (['F', 'E', 'E', 'D'], .feed), (['S', 'T', 'E', 'P'], .step), (['D', 'R', 'A', 'I', 'N'], .drain) ]
  ++ [ (['R', 'E', 'S', 'E', 'T'], .reset), (['S', 'T', 'A', 'T', 'U', 'S'], .status) ]
  ++ [ (['C', 'H', 'E', 'C', 'K', 'S', 'U', 'M'], .checksum), (['V', 'E', 'R', 'I', 'F', 'Y'], .verify) ]
  ++ [ (['F', 'I', 'N', 'D', '_', 'M', 'A', 'G', 'I', 'C'], .findMagic) ]
  ++ [ (['T', 'R', 'Y', '_', 'D', 'E', 'C', 'O', 'D', 'E'], .tryDecode) ]
  ++ [ (['D', 'E', 'C', 'O', 'D', 'E', '_', 'R', 'E', 'S', 'U', 'L', 'T'], .decodeResult) ]
  ++ [ (['D', 'E', 'C', 'O', 'D', 'E', '_', 'S', 'T', 'A', 'T', 'E'], .decodeState) ]
  ++ [ (['D', 'E', 'C', 'O', 'D', 'E', '_', 'E', 'R', 'R', 'O', 'R'], .decodeError) ]
  ++ [ (['E', 'N', 'C', 'O', 'D', 'E', '_', 'F', 'R', 'A', 'M', 'E'], .encodeFrame) ]
  ++ [ (['E', 'N', 'C', 'O', 'D', 'E', '_', 'C', 'O', 'M', 'M', 'A', 'N', 'D'], .encodeCommand) ]
  ++ [ (['E', 'N', 'C', 'O', 'D', 'E', '_', 'W', 'I', 'F', 'I'], .encodeWifi) ]

/-- A pseudo-operation's mnemonic with its operands (R71), none if it is not one. -/
def parsePseudo (word : List Char) (os : List Operand) : Option PseudoOp :=
  if word = ['F', 'E', 'E', 'D', 'F', 'R', 'A', 'M', 'E'] then
    match os with
    | [.u8 t, .bytes p] => some (.feedFrame t p)
    | _ => none
  else if word = ['S', 'E', 'N', 'D', 'C', 'M', 'D'] then
    match os with
    | [.u8 c, .bytes a] => some (.sendCmd c a)
    | _ => none
  else if word = ['S', 'E', 'N', 'D', 'W', 'I', 'F', 'I'] then
    match os with
    | [.bytes ssid, .bytes pass] => some (.sendWifi ssid pass)
    | _ => none
  else if word = ['D', 'R', 'A', 'I', 'N', 'S', 'T', 'E', 'P', 'S'] then
    match os with
    | [] => some .drainSteps
    | _ => none
  else none

/-- A mnemonic with its operands, none if there is no such operation or the operands are not those it lists. -/
def parseOperation (word : List Char) (os : List Operand) : Option Line :=
  match mnemonics.find? fun r => r.1 == word with
  | some r =>
    match decodeOperands r.2 os with
    | some i => some (.op i)
    | none => none
  | none =>
    match parsePseudo word os with
    | some p => some (.pseudo p)
    | none => none

/-- Read one line of a program (R70). -/
def parseLine (cs : List Char) : Option Line :=
  let start := skipBlanks cs
  if lineEnds start then some .blank
  else
    let word := start.takeWhile fun c => !(c == ' ' || c == ';')
    let rest := skipBlanks (start.drop word.length)
    if lineEnds rest then parseOperation word []
    else
      match parseOperands rest.length rest with
      | some os => parseOperation word os
      | none => none

/-- Read a program, a list of lines (R70). -/
def parseProgram : List (List Char) → Option (List Line)
  | [] => some []
  | l :: ls =>
    match parseLine l, parseProgram ls with
    | some x, some xs => some (x :: xs)
    | _, _ => none

/-- What a line does: the operation, or the expansion of the pseudo-operation. -/
def runLine : Line → State → Outcome
  | .blank, s => .next s
  | .op i, s => exec i s
  | .pseudo p, s => runPseudo p s

/-- A program: its lines in order (R39, R70). -/
def runLines : List Line → State → Outcome
  | [], s => .next s
  | l :: ls, s => onNext (runLine l s) (runLines ls)

end Sys2Proof.Machine
end

