-- ==== Sys2Proof/Tests/Slice0.lean ====
section
/-! SUPPORT. Tests. The expected results are the spec's own vectors (95_test_vectors.md; the id stands in the docstring) or
are worked out by hand from the rule named. Then, for every statement with hypotheses, a witness that meets them. -/

namespace Sys2Proof.Tests

open Sys2Proof Sys2Proof.Machine

/-! ### States and frames of the vectors -/

/-- The named frames of 95_test_vectors.md. -/
def frameA : List Byte :=
  [0x49#8, 0x4D#8, 0x50#8, 0x52#8, 0x4F#8, 0x56#8, 0x01#8, 0x01#8, 0x01#8, 0x03#8, 0x06#8]
def frameB : List Byte :=
  [0x49#8, 0x4D#8, 0x50#8, 0x52#8, 0x4F#8, 0x56#8, 0x01#8, 0x01#8, 0x01#8, 0x04#8, 0x07#8]
def frameA' : List Byte :=
  [0x49#8, 0x4D#8, 0x50#8, 0x52#8, 0x4F#8, 0x56#8, 0x01#8, 0x01#8, 0x01#8, 0x03#8, 0x07#8]
def frameC' : List Byte :=
  [0x49#8, 0x4D#8, 0x50#8, 0x52#8, 0x4F#8, 0x56#8, 0x01#8, 0x03#8, 0x09#8, 0x49#8, 0x4D#8, 0x50#8, 0x52#8,
   0x4F#8, 0x56#8, 0x01#8, 0x01#8, 0x40#8, 0x2D#8]

/-- The records of A and B. -/
def recordA : Frame :=
  { version := 0x01#8, ftype := 0x01#8, length := 0x01#8, payload := [0x03#8], checksum := 0x06#8 }
def recordB : Frame :=
  { version := 0x01#8, ftype := 0x01#8, length := 0x01#8, payload := [0x04#8], checksum := 0x07#8 }

/-- "hello world!" and "IMPROV serial\r\n" (V-DM-17, V-DM-14). -/
def helloWorld : List Byte :=
  [0x68#8, 0x65#8, 0x6C#8, 0x6C#8, 0x6F#8, 0x20#8, 0x77#8, 0x6F#8, 0x72#8, 0x6C#8, 0x64#8, 0x21#8]
def consoleText : List Byte :=
  [0x49#8, 0x4D#8, 0x50#8, 0x52#8, 0x4F#8, 0x56#8, 0x20#8, 0x73#8, 0x65#8, 0x72#8, 0x69#8, 0x61#8, 0x6C#8,
   0x0D#8, 0x0A#8]

/-- The vectors' instance with bytes in its buffer. -/
def holding (bs : List Byte) : State := { State.reset with buf := bs }

/-- The vectors' instance with some parameters changed. -/
def holdingWith (p : Params) (bs : List Byte) : State := { State.resetWith p with buf := bs }

/-- An instance with `BUF_CAP = 16` (P4), with `at_prefix`, without the TX builder, with the swapped STATE_MAP. -/
def cap16 : Params := { Params.standard with bufCap := .bounded 16 }
def atPrefix : Params := { Params.standard with versionCheckAt := .atPrefix }
def noTx : Params := { Params.standard with hasTxBuilder := false }
def swapped : Params := { Params.standard with stateMap := .swapped }

/-- The buffer of P4 after its second line: "hello world!" and the first 4 bytes of A. -/
def full16 : List Byte := helloWorld ++ [0x49#8, 0x4D#8, 0x50#8, 0x52#8]

/-- What an outcome shows: the results returned, BUF and OVF (R155). -/
def seen : Outcome → Option Observation
  | .next s => some s.observation
  | .fault _ => none
  | .refused _ => none

/-- The last result of an outcome. -/
def lastResult : Outcome → Option Result
  | .next s => s.results.getLast?
  | .fault _ => none
  | .refused _ => none

/-! ### Well-formed commands: one that is, and an ill-formed one for each check -/

theorem test_wellFormed_accepts :
    Command.wellFormed { opcode := 0x13#8, operands := [.bytes [0x49#8], .nat 0] } = true := by decide
/-- The op code 14 is not assigned (R67). -/
theorem test_wellFormed_refuses_unassigned_opcode :
    Command.wellFormed { opcode := 0x14#8, operands := [] } = false ∧
    Command.opcodeAssigned { opcode := 0x14#8, operands := [] } = false := by decide
/-- VERIFY lists a byte sequence and then a byte (R66): not the other order, not one of them alone. -/
theorem test_wellFormed_refuses_operands_not_listed :
    Command.wellFormed { opcode := 0x11#8, operands := [.u8 0x06#8, .bytes []] } = false ∧
    Command.operandsAsListed { opcode := 0x11#8, operands := [.bytes []] } = false ∧
    Command.operandsAsListed { opcode := 0x02#8, operands := [.nat 0] } = false := by decide

/-! ### Decoding: op codes written out from R66, bit by bit -/

/-- Stream demultiplexer: FEED is 0000 0001, STEP 0000 0010, DRAIN 0000 0011, FIND_MAGIC 0001 0010. -/
theorem test_decode_stream :
    decode { opcode := 0b00000001#8, operands := [.bytes frameA] } = .ok (.feed frameA) ∧
    decode { opcode := 0b00000010#8, operands := [] } = .ok .step ∧
    decode { opcode := 0b00000011#8, operands := [] } = .ok .drain ∧
    decode { opcode := 0b00010010#8, operands := [.bytes frameA] } = .ok (.findMagic frameA) := ⟨rfl, rfl, rfl, rfl⟩
/-- Control: RESET is 0000 0100, STATUS 0000 0101. -/
theorem test_decode_control :
    decode { opcode := 0b00000100#8, operands := [] } = .ok .reset ∧
    decode { opcode := 0b00000101#8, operands := [] } = .ok .status := ⟨rfl, rfl⟩
/-- Checksum unit: CHECKSUM is 0001 0000, VERIFY 0001 0001. -/
theorem test_decode_checksum :
    decode { opcode := 0b00010000#8, operands := [.bytes [0x01#8]] } = .ok (.checksum [0x01#8]) ∧
    decode { opcode := 0b00010001#8, operands := [.bytes [0x01#8], .u8 0x02#8] } = .ok (.verify [0x01#8] 0x02#8) :=
  ⟨rfl, rfl⟩
/-- Frame codec: TRY_DECODE is 0001 0011, ENCODE_FRAME 0011 0000. -/
theorem test_decode_frame :
    decode { opcode := 0b00010011#8, operands := [.bytes frameA, .nat 2] } = .ok (.tryDecode frameA 2) ∧
    decode { opcode := 0b00110000#8, operands := [.u8 0x03#8, .bytes []] } = .ok (.encodeFrame 0x03#8 []) := ⟨rfl, rfl⟩
/-- RPC codec: DECODE_RESULT is 0010 0000, ENCODE_COMMAND 0011 0001, ENCODE_WIFI 0011 0010 with the SSID first. -/
theorem test_decode_rpc :
    decode { opcode := 0b00100000#8, operands := [.bytes [0x03#8]] } = .ok (.decodeResult [0x03#8]) ∧
    decode { opcode := 0b00110001#8, operands := [.u8 0x02#8, .bytes []] } = .ok (.encodeCommand 0x02#8 []) ∧
    decode { opcode := 0b00110010#8, operands := [.bytes [0x61#8], .bytes [0x63#8]] } =
      .ok (.encodeWifi [0x61#8] [0x63#8]) := ⟨rfl, rfl, rfl⟩
/-- Payload interpreters: DECODE_STATE is 0010 0001, DECODE_ERROR 0010 0010. -/
theorem test_decode_interpreters :
    decode { opcode := 0b00100001#8, operands := [.bytes [0x03#8]] } = .ok (.decodeState [0x03#8]) ∧
    decode { opcode := 0b00100010#8, operands := [.bytes [0x03#8]] } = .ok (.decodeError [0x03#8]) := ⟨rfl, rfl⟩
/-- An illegal op code is rejected by name whatever the operands (R67, R130), and wrong operands by another name. -/
theorem test_decode_rejects :
    decode { opcode := 0x06#8, operands := [.nat 7] } = .error (.illegalOpcode 0x06#8) ∧
    decode { opcode := 0x01#8, operands := [] } = .error (.operandsNotAsListed 0x01#8) := ⟨rfl, rfl⟩
/-- The op code is the low byte of the table's word, the operands are zeros (log entry 5). -/
theorem test_decodeTableWord :
    decodeTableWord 8 0x30 = some (.encodeFrame 0x00#8 []) ∧ decodeTableWord 8 0x13 = some (.tryDecode [] 0) ∧
    decodeTableWord 8 0x33 = none := ⟨rfl, rfl, rfl⟩

/-! ### The operations -/

/-- P4, line 2: E_OVF(7), the first 4 bytes kept, OVF = 1. -/
theorem test_feed_overflow :
    seen (exec (.feed frameA) (holdingWith cap16 helloWorld)) =
      some { results := [.error (.ovf 7)], buf := full16, ovf := true } := by decide
/-- V-DM-03. -/
theorem test_feed_nothing :
    seen (exec (.feed []) (holding [0x68#8])) = some { results := [.ok .none], buf := [0x68#8], ovf := false } := by decide
/-- P2, line 2: the tag is at 2 and Invalid, and exactly the first byte, 78, is removed. -/
theorem test_step_discards_one_byte :
    seen (exec .step (holding ([0x78#8, 0x79#8] ++ frameA' ++ frameB))) =
      some { results := [.ok (.step .discard)], buf := [0x79#8] ++ frameA' ++ frameB, ovf := false } := by decide
/-- P2, line 5: the tag of B is at 10; 10 + 11 bytes are removed. -/
theorem test_step_emits_and_drops_prefix :
    seen (exec .step (holding (frameA'.drop 1 ++ frameB))) =
      some { results := [.ok (.step (.emit recordB))], buf := [], ovf := false } := by decide
/-- V-DM-15: after the discard the tag in the payload of C' heads a candidate that is never filled. -/
theorem test_drain_tag_in_payload :
    seen (exec .drain (holding (frameC' ++ frameB))) =
      some { results := [.ok (.drain [] .needMoreData)], buf := frameC'.drop 1 ++ frameB, ovf := false } := by decide
/-- V-DM-14: a false tag in console text, under both values of VERSION_CHECK_AT. -/
theorem test_drain_version_check :
    seen (exec .drain (holding (consoleText ++ frameA))) =
      some { results := [.ok (.drain [] .needMoreData)], buf := consoleText ++ frameA, ovf := false } ∧
    seen (exec .drain (holdingWith atPrefix (consoleText ++ frameA))) =
      some { results := [.ok (.drain [recordA] .noMagic)], buf := [], ovf := false } := by decide
/-- V-CT-02. -/
theorem test_reset_clears :
    seen (exec .reset { State.reset with buf := [0x49#8, 0x4D#8], ovf := true }) =
      some { results := [.ok .none], buf := [], ovf := false } := by decide
/-- V-DM-17: the first STATUS. -/
theorem test_status_full :
    seen (exec .status { holdingWith cap16 full16 with ovf := true }) =
      some { results := [.ok (.status 16 true)], buf := full16, ovf := true } := by decide
/-- V-CS-04, V-CS-05: the sum wraps. -/
theorem test_checksum_wraps :
    lastResult (exec (.checksum [0x80#8, 0x80#8]) State.reset) = some (.ok (.byte 0x00#8)) ∧
    lastResult (exec (.checksum (List.replicate 255 0xFF#8)) State.reset) = some (.ok (.byte 0x01#8)) := by decide +kernel
/-- V-CS-06, V-CS-07, V-CS-08. -/
theorem test_verify :
    lastResult (exec (.verify [0x01#8, 0x01#8, 0x01#8, 0x03#8] 0x06#8) State.reset) = some (.ok (.bool true)) ∧
    lastResult (exec (.verify [0x01#8, 0x01#8, 0x01#8, 0x03#8] 0x07#8) State.reset) = some (.ok (.bool false)) ∧
    lastResult (exec (.verify [] 0x00#8) State.reset) = some (.ok (.bool true)) := by decide
/-- V-DM-18: a whole tag is found, a cut-off one is not. -/
theorem test_findMagic :
    lastResult (exec (.findMagic ([0x68#8, 0x69#8] ++ frameA)) State.reset) = some (.ok (.offset (some 2))) ∧
    lastResult (exec (.findMagic [0x49#8, 0x4D#8, 0x50#8]) State.reset) = some (.ok (.offset none)) := by decide
/-- V-FC-06: version 02, N = 50, 9 bytes. -/
theorem test_tryDecode_version :
    lastResult (exec (.tryDecode [0x49#8, 0x4D#8, 0x50#8, 0x52#8, 0x4F#8, 0x56#8, 0x02#8, 0x01#8, 0x50#8] 0) State.reset) =
      some (.ok (.verdict .needMoreData)) ∧
    lastResult (exec (.tryDecode [0x49#8, 0x4D#8, 0x50#8, 0x52#8, 0x4F#8, 0x56#8, 0x02#8, 0x01#8, 0x50#8] 0)
      (State.resetWith atPrefix)) = some (.ok (.verdict .invalid)) := by decide
/-- V-FC-11, V-FC-12, V-FC-14. -/
theorem test_tryDecode_start :
    lastResult (exec (.tryDecode ([0x68#8, 0x69#8] ++ frameA) 2) State.reset) =
      some (.ok (.verdict (.valid recordA 11))) ∧
    lastResult (exec (.tryDecode ([0x68#8, 0x69#8] ++ frameA) 0) State.reset) = some (.error (.start 0)) ∧
    lastResult (exec (.tryDecode frameA 11) State.reset) = some (.ok (.verdict .needMoreData)) := by decide
/-- V-RPC-09: the declared length FF is not used. -/
theorem test_decodeResult_declared_length :
    lastResult (exec (.decodeResult [0x03#8, 0xFF#8, 0x03#8, 0x45#8, 0x53#8, 0x50#8, 0x03#8, 0x31#8, 0x2E#8, 0x30#8])
      State.reset) =
      some (.ok (.rpcResult { command := 0x03#8, values := [[0x45#8, 0x53#8, 0x50#8], [0x31#8, 0x2E#8, 0x30#8]] })) := by
  decide
/-- V-RPC-11, V-RPC-15, V-RPC-16. -/
theorem test_decodeResult_ends :
    lastResult (exec (.decodeResult [0x03#8]) State.reset) = some (.error (.rpcShort 1)) ∧
    lastResult (exec (.decodeResult [0x01#8, 0x09#8, 0x05#8, 0x61#8, 0x62#8]) State.reset) =
      some (.ok (.rpcResult { command := 0x01#8, values := [[0x61#8, 0x62#8]] })) ∧
    lastResult (exec (.decodeResult [0x01#8, 0x04#8, 0x02#8, 0x61#8, 0x62#8, 0x07#8]) State.reset) =
      some (.ok (.rpcResult { command := 0x01#8, values := [[0x61#8, 0x62#8], []] })) := by decide
/-- V-RPC-18, V-RPC-19. -/
theorem test_decodeState_maps :
    lastResult (exec (.decodeState [0x01#8]) State.reset) = some (.ok (.deviceState .awaitingAuthorization)) ∧
    lastResult (exec (.decodeState [0x01#8]) (State.resetWith swapped)) = some (.ok (.deviceState .authorized)) ∧
    lastResult (exec (.decodeState [0x02#8]) State.reset) = some (.ok (.deviceState .authorized)) ∧
    lastResult (exec (.decodeState [0x02#8]) (State.resetWith swapped)) =
      some (.ok (.deviceState .awaitingAuthorization)) := by decide
/-- V-RPC-20, V-RPC-21, V-RPC-22. -/
theorem test_decodeState_bytes :
    lastResult (exec (.decodeState [0x04#8]) State.reset) = some (.ok (.deviceState .provisioned)) ∧
    lastResult (exec (.decodeState [0x09#8]) State.reset) = some (.ok (.deviceState (.unrecognizedState 0x09#8))) ∧
    lastResult (exec (.decodeState [0x03#8, 0x04#8]) State.reset) = some (.error (.payload 2)) := by decide
/-- V-RPC-23, V-RPC-24, V-RPC-25. -/
theorem test_decodeError :
    lastResult (exec (.decodeError [0xFF#8]) State.reset) = some (.ok (.deviceError .unknown)) ∧
    lastResult (exec (.decodeError [0x05#8]) State.reset) = some (.ok (.deviceError (.unrecognizedError 0x05#8))) ∧
    lastResult (exec (.decodeError []) State.reset) = some (.error (.payload 0)) := by decide
/-- V-FC-17, V-FC-18. -/
theorem test_encodeFrame :
    lastResult (exec (.encodeFrame 0x01#8 [0x03#8]) State.reset) = some (.ok (.bytes frameA)) ∧
    lastResult (exec (.encodeFrame 0x03#8 []) State.reset) =
      some (.ok (.bytes [0x49#8, 0x4D#8, 0x50#8, 0x52#8, 0x4F#8, 0x56#8, 0x01#8, 0x03#8, 0x00#8, 0x04#8])) := by decide
/-- V-FC-20, V-FC-21. -/
theorem test_encodeFrame_errors :
    lastResult (exec (.encodeFrame 0x01#8 (List.replicate 256 0x00#8)) State.reset) = some (.error (.len 256)) ∧
    lastResult (exec (.encodeFrame 0x01#8 [0x03#8]) (State.resetWith noTx)) = some (.error .noTx) := by decide +kernel
/-- V-RPC-02. -/
theorem test_encodeCommand :
    lastResult (exec (.encodeCommand 0x01#8 [0x02#8, 0x61#8, 0x62#8, 0x01#8, 0x63#8]) State.reset) =
      some (.ok (.bytes [0x01#8, 0x05#8, 0x02#8, 0x61#8, 0x62#8, 0x01#8, 0x63#8])) := by decide
/-- V-RPC-03, V-RPC-06: the SSID is checked first. -/
theorem test_encodeWifi :
    lastResult (exec (.encodeWifi [0x61#8, 0x62#8] [0x63#8]) State.reset) =
      some (.ok (.bytes [0x02#8, 0x61#8, 0x62#8, 0x01#8, 0x63#8])) ∧
    lastResult (exec (.encodeWifi (List.replicate 256 0x61#8) (List.replicate 300 0x62#8)) State.reset) =
      some (.error (.len 256)) := by decide +kernel
/-- P3, lines 1 to 3, as SENDWIFI: the frame W. -/
theorem test_sendWifi :
    lastResult (sendWifi [0x61#8, 0x62#8] [0x63#8] State.reset) =
      some (.ok (.bytes [0x49#8, 0x4D#8, 0x50#8, 0x52#8, 0x4F#8, 0x56#8, 0x01#8, 0x03#8, 0x07#8, 0x01#8, 0x05#8, 0x02#8,
        0x61#8, 0x62#8, 0x01#8, 0x63#8, 0x3A#8])) := by decide
/-- V-RPC-27: a 200-byte SSID and a 52-byte password give E_LEN(256) at ENCODE_FRAME. -/
theorem test_sendWifi_too_long :
    lastResult (sendWifi (List.replicate 200 0x61#8) (List.replicate 52 0x62#8) State.reset) = some (.error (.len 256)) := by
  decide +kernel
/-- P4, line 6: FEEDFRAME. -/
theorem test_feedFrame :
    seen (feedFrame 0x01#8 [0x03#8] State.reset) =
      some { results := [.ok (.bytes frameA), .ok .none], buf := frameA, ovf := false } := by decide

/-! ### Steps, and the written form -/

/-- V-CT-04: an illegal op code returns E_ILLEGAL and writes no state. -/
theorem test_step_illegal :
    seen (step { holding [0x49#8] with pending := [{ opcode := 0xFF#8, operands := [.u8 0x00#8] }] }) =
      some { results := [.error (.illegal 0xFF#8)], buf := [0x49#8], ovf := false } := by decide
/-- With nothing issued the reset state stays as it is; a word placed is the next step's operation. -/
theorem test_step_from_reset :
    step State.reset = .next State.reset ∧
    step (State.reset.withFetchWord 8 0x05) = .next { State.reset with results := [.ok (.status 0 false)] } := ⟨rfl, rfl⟩
/-- P2, line 2, and P3, line 1, with its result and P1's comment form. -/
theorem test_parseLine :
    parseLine "STEP".toList = some (.op .step) ∧
    parseLine "ENCODE_WIFI \"ab\", \"c\" => OK([02 61 62 01 63])".toList =
      some (.op (.encodeWifi [0x61#8, 0x62#8] [0x63#8])) ∧
    parseLine "FEED [68 69] ; text".toList = some (.op (.feed [0x68#8, 0x69#8])) ∧
    parseLine "TRY_DECODE [49 4D 50], 0".toList = some (.op (.tryDecode [0x49#8, 0x4D#8, 0x50#8] 0)) ∧
    parseLine "FEEDFRAME 0x01, [03]".toList = some (.pseudo (.feedFrame 0x01#8 [0x03#8])) := by decide

/-! ### Witnesses: for every statement with hypotheses, states and operands that meet them, at the ends of their ranges -/

/-- The state of P4 after its second line, with a command to take. -/
def lossyState (c : Instr) : State :=
  { params := cap16, buf := full16, ovf := true, pending := [encode c]
    results := [.ok .none, .ok (.step (.emit recordA)), .error (.ovf 7)] }

/-- The bytes of A with a version byte of 02, its checksum consistent (V-FC-05). -/
def frameV2 : List Byte :=
  [0x49#8, 0x4D#8, 0x50#8, 0x52#8, 0x4F#8, 0x56#8, 0x02#8, 0x01#8, 0x01#8, 0x03#8, 0x07#8]

theorem witness_ResetStateOfEveryInstance : ∃ (p : Params) (s : State), s.params = p ∧ s.buf ≠ [] ∧ s.ovf = true :=
  ⟨cap16, lossyState .reset, rfl, by decide, rfl⟩

theorem witness_ResetEmptiesBufferAndClearsFlag :
    ∃ s t : State, s.buf = [] ∧ s.ovf = false ∧ exec .reset s = .next t :=
  ⟨State.reset, _, rfl, rfl, rfl⟩

/-- The full buffer, at BUF_CAP = 16 and at BUF_CAP = 0. -/
theorem witness_StatusReturnsLengthAndFlag :
    (∃ s : State, s.params.bufCap = .bounded s.buf.length ∧ s.buf.length = 16) ∧
    ∃ s : State, s.params.bufCap = .bounded s.buf.length ∧ s.buf.length = 0 :=
  ⟨⟨holdingWith cap16 full16, rfl, rfl⟩, ⟨State.resetWith { Params.standard with bufCap := .bounded 0 }, rfl, rfl⟩⟩

theorem witness_StepRunsTheDecodedOperation :
    (∃ (s : State) (c : Command) (rest : List Command) (i : Instr),
      s.pending = c :: rest ∧ decode c = .ok i ∧ rest ≠ []) ∧
    ∃ s : State, s.pending = [] :=
  ⟨⟨{ State.reset with pending := [encode (.feed frameA), encode .drain] }, _, _, .feed frameA, rfl, rfl, by decide⟩,
    ⟨State.reset, rfl⟩⟩

/-- The ends of each range of unassigned op codes (R67). -/
theorem witness_UnassignedOpcodeReturnsEIllegal :
    ∀ b ∈ [0x00#8, 0x06#8, 0x0F#8, 0x14#8, 0x1F#8, 0x23#8, 0x2F#8, 0x33#8, 0xFF#8],
      ∃ (s : State) (c : Command) (rest : List Command), s.pending = c :: rest ∧ c.opcode = b ∧
        (c.opcode.toNat = 0x00 ∨ (0x06 ≤ c.opcode.toNat ∧ c.opcode.toNat ≤ 0x0F) ∨
          (0x14 ≤ c.opcode.toNat ∧ c.opcode.toNat ≤ 0x1F) ∨ (0x23 ≤ c.opcode.toNat ∧ c.opcode.toNat ≤ 0x2F) ∨
          (0x33 ≤ c.opcode.toNat ∧ c.opcode.toNat ≤ 0xFF)) := by
  intro b hb
  refine ⟨{ State.reset with pending := [{ opcode := b, operands := [.nat 1] }] }, { opcode := b, operands := [.nat 1] }, [],
    rfl, rfl, ?_⟩
  revert b
  decide

theorem witness_DecodeAndEncodeAgree : ∃ (c : Command) (i : Instr), decode c = .ok i ∧ i = .verify frameA 0x06#8 :=
  ⟨{ opcode := 0x11#8, operands := [.bytes frameA, .u8 0x06#8] }, _, rfl, rfl⟩

/-- A step that faults, and one that does not. -/
theorem witness_StepStopsOnlyOnOperandsNotListed :
    (∃ (s : State) (f : Fault), step s = .fault f) ∧ ∃ s t : State, step s = .next t ∧ s.pending ≠ [] :=
  ⟨⟨{ State.reset with pending := [{ opcode := 0x01#8, operands := [.u8 0x00#8] }] }, _, rfl⟩,
    ⟨lossyState .status, _, rfl, by decide⟩⟩

/-- RESET, a FEED that drops a byte, and another operation; and an operation that is not STATUS. -/
theorem witness_OverflowFlagIsSticky :
    (∃ s t : State, exec .reset s = .next t ∧ s.ovf = true) ∧
    (∃ s t : State, exec (.feed frameA) s = .next t ∧ s.ovf = false ∧ t.ovf = true) ∧
    (∃ s t : State, exec .drain s = .next t ∧ s.ovf = true) ∧ ∃ i : Instr, i ≠ .status :=
  ⟨⟨lossyState .reset, _, rfl, rfl⟩, ⟨holdingWith cap16 helloWorld, _, rfl, rfl, rfl⟩,
    ⟨lossyState .drain, _, rfl, rfl⟩, ⟨.drain, by decide⟩⟩

theorem witness_PureOperationsReadOnlyTheirOperands : ∃ i : Instr, isPureOperation i = true :=
  ⟨.tryDecode frameA 0, rfl⟩

/-- An error that is not E_OVF, and E_OVF. -/
theorem witness_ErrorsArePrecise :
    (∃ (i : Instr) (s t : State) (e : ErrorInfo), exec i s = .next t ∧ t.results = s.results ++ [.error e] ∧
      ∀ d, e ≠ .ovf d) ∧
    ∃ (i : Instr) (s t : State) (e : ErrorInfo), exec i s = .next t ∧ t.results = s.results ++ [.error e] ∧ e = .ovf 7 :=
  ⟨⟨.tryDecode frameA 1, State.reset, _, .start 1, rfl, rfl, by intro d h; cases h⟩,
    ⟨.feed frameA, holdingWith cap16 helloWorld, _, .ovf 7, rfl, rfl, rfl⟩⟩

theorem lossyState_bufWithinCap (c : Instr) : (lossyState c).bufWithinCap := by
  intro n h
  cases h
  exact Nat.le_refl 16

/-- A full buffer, and each operation that writes it with one that does not. -/
theorem witness_BufferGrowsAtTheBackAndShrinksAtTheFront :
    ∀ i ∈ [Instr.feed frameA, .step, .drain, .reset, .status],
      ∃ s t : State, exec i s = .next t ∧ s.bufWithinCap ∧ s.buf.length = 16 := by
  intro i hi
  simp only [List.mem_cons, List.not_mem_nil, or_false] at hi
  rcases hi with rfl | rfl | rfl | rfl | rfl <;>
    exact ⟨lossyState .status, _, rfl, lossyState_bufWithinCap _, rfl⟩

theorem witness_NoStepChangesAParameter : ∃ s t : State, step s = .next t ∧ s.pending ≠ [] :=
  ⟨lossyState .reset, _, rfl, by decide⟩

/-- Stated for any argument of 256 bytes, so that they need not be written out. -/
theorem encodeCommand_256 (a : List Byte) (h : a.length = 256) : exec (.encodeCommand 0x01#8 a) State.reset =
    .next { State.reset with results := [.error (.len 256)] } := by
  show (if a.length > 255 then raise (.len a.length) State.reset else _) = _
  rw [h]
  rfl

/-- Each code of R123 is returned by some operation in some state. -/
theorem witness_EveryOperationReturnsACodeOfItsRow :
    ∀ c ∈ [0x00#8, 0x01#8, 0x02#8, 0x03#8, 0x04#8, 0x05#8, 0x06#8],
      ∃ (i : Instr) (s t : State) (r : Result), exec i s = .next t ∧ t.results = s.results ++ [r] ∧ r.code = c := by
  intro c hc
  simp only [List.mem_cons, List.not_mem_nil, or_false] at hc
  rcases hc with rfl | rfl | rfl | rfl | rfl | rfl | rfl
  · exact ⟨.drain, holding frameA, _, _, rfl, rfl, rfl⟩
  · exact ⟨.encodeCommand 0x01#8 (List.replicate 256 0x00#8), State.reset, _, .error (.len 256),
      encodeCommand_256 _ (by decide +kernel), rfl, rfl⟩
  · exact ⟨.decodeResult [0x03#8], State.reset, _, .error (.rpcShort 1), rfl, rfl, rfl⟩
  · exact ⟨.feed [0x00#8], holdingWith cap16 full16, _, .error (.ovf 1), rfl, rfl, rfl⟩
  · exact ⟨.decodeState [], State.reset, _, .error (.payload 0), rfl, rfl, rfl⟩
  · exact ⟨.encodeFrame 0x01#8 [], State.resetWith noTx, _, .error .noTx, rfl, rfl, rfl⟩
  · exact ⟨.tryDecode frameA 12, State.reset, _, .error (.start 12), rfl, rfl, rfl⟩

theorem witness_CommandsRunInIssueOrder : ∃ (is : List Instr) (s : State), s.pending = is.map encode ∧ is.length = 2 :=
  ⟨[.feed frameA, .drain], { State.reset with pending := [encode (.feed frameA), encode .drain] }, rfl, rfl⟩

theorem lossyState_inv (c : Instr) : (lossyState c).Inv := by
  refine ⟨lossyState_bufWithinCap c, fun _ => ⟨⟨16, rfl⟩, 7, by decide, by simp [lossyState]⟩, ?_⟩
  intro r hr f hf
  simp only [lossyState, List.mem_cons, List.not_mem_nil, or_false] at hr
  rcases hr with rfl | rfl | rfl <;> simp [Result.frames] at hf
  subst hf
  exact ⟨rfl, rfl, by decide⟩

/-- A full buffer, OVF set, a frame returned, and a command to take. -/
theorem witness_EveryStepKeepsTheInvariant :
    ∃ s t : State, s.Inv ∧ step s = .next t ∧ s.ovf = true ∧ s.buf.length = 16 :=
  ⟨lossyState .drain, _, lossyState_inv _, rfl, rfl, rfl⟩

/-- A full candidate of version 01 whose checksum agrees, and one whose checksum does not. -/
theorem witness_VerifyComparesTheSum :
    ∀ f ∈ [frameA, frameA'], ∃ (q : Nat) (n c : Byte), tagBegins f q ∧ f[q + 6]? = some 0x01#8 ∧ f[q + 8]? = some n ∧
      f[q + 9 + n.toNat]? = some c := by
  intro f hf
  simp only [List.mem_cons, List.not_mem_nil, or_false] at hf
  rcases hf with rfl | rfl
  · exact ⟨0, 0x01#8, 0x06#8, startOk_iff.mp rfl, rfl, rfl, rfl⟩
  · exact ⟨0, 0x01#8, 0x07#8, startOk_iff.mp rfl, rfl, rfl, rfl⟩

theorem witness_ChangingOneByteChangesTheChecksum :
    ∃ (x y : List Byte) (a b : Byte) (s : State) (u w : Byte), a ≠ b ∧
      exec (.checksum (x ++ a :: y)) s = .next { s with results := s.results ++ [.ok (.byte u)] } ∧
      exec (.checksum (x ++ b :: y)) s = .next { s with results := s.results ++ [.ok (.byte w)] } :=
  ⟨[0x01#8], [0x03#8], 0x00#8, 0xFF#8, State.reset, 0x04#8, 0x03#8, by decide, rfl, rfl⟩

theorem witness_ChecksumIgnoresOrderAndZeros :
    (∃ x y : List Byte, x.Perm y ∧ x ≠ y) ∧
    ∃ (x y : List Byte) (s : State) (u w : Byte),
      exec (.checksum x) s = .next { s with results := s.results ++ [.ok (.byte u)] } ∧
      exec (.checksum y) s = .next { s with results := s.results ++ [.ok (.byte w)] } :=
  ⟨⟨[0x01#8, 0x02#8], [0x02#8, 0x01#8], List.Perm.swap _ _ _, by decide⟩,
    ⟨[0xFF#8], [0x01#8], State.reset, 0xFF#8, 0x01#8, rfl, rfl⟩⟩

/-- Payloads of 255 and of 256 bytes, and an instance without the TX builder. -/
theorem witness_EncodeFrameBuildsTheWireLayout :
    (∃ (p : List Byte) (s : State), s.params.hasTxBuilder = true ∧ p.length ≤ 255 ∧ p.length = 255) ∧
    (∃ (p : List Byte) (s : State), s.params.hasTxBuilder = true ∧ 255 < p.length ∧ p.length = 256) ∧
    ∃ s : State, s.params.hasTxBuilder = false :=
  ⟨⟨List.replicate 255 0x00#8, State.reset, rfl, by decide +kernel, by decide +kernel⟩,
    ⟨List.replicate 256 0x00#8, State.reset, rfl, by decide +kernel, by decide +kernel⟩, ⟨State.resetWith noTx, rfl⟩⟩

theorem witness_AbsentTxBuilderReturnsENotx :
    ∀ i ∈ [Instr.encodeFrame 0x01#8 [], .encodeCommand 0x01#8 [], .encodeWifi [] []],
      ∃ s : State, s.params.hasTxBuilder = false ∧
        ((∃ t p, i = .encodeFrame t p) ∨ (∃ c a, i = .encodeCommand c a) ∨ ∃ u w, i = .encodeWifi u w) := by
  intro i hi
  simp only [List.mem_cons, List.not_mem_nil, or_false] at hi
  rcases hi with rfl | rfl | rfl
  · exact ⟨State.resetWith noTx, rfl, .inl ⟨_, _, rfl⟩⟩
  · exact ⟨State.resetWith noTx, rfl, .inr (.inl ⟨_, _, rfl⟩)⟩
  · exact ⟨State.resetWith noTx, rfl, .inr (.inr ⟨_, _, rfl⟩)⟩

/-- Each clause in turn: no tag begins (at 1, and past the end); 8 bytes; version 02 of 9 bytes under at_prefix; 10 bytes of
the 11; version 02 whole; a wrong checksum; a right one. -/
theorem witness_TryDecodeClassifiesTheCandidate :
    (∃ (bs : List Byte) (q : Nat), tagAt bs q ∧ q = 2) ∧
    (∃ (bs : List Byte) (q : Nat), ¬ tagBegins bs q ∧ q < bs.length) ∧
    (∃ (bs : List Byte) (q : Nat), ¬ tagBegins bs q ∧ q = bs.length + 1) ∧
    (∃ (bs : List Byte) (q : Nat), tagBegins bs q ∧ bs.length - q < 9 ∧ bs.length - q = 8) ∧
    (∃ (bs : List Byte) (q : Nat) (s : State) (v t n : Byte), tagBegins bs q ∧ bs[q + 6]? = some v ∧ bs[q + 7]? = some t ∧
      bs[q + 8]? = some n ∧ s.params.versionCheckAt = .atPrefix ∧ v ≠ 0x01#8 ∧ bs.length - q = 9) ∧
    (∃ (bs : List Byte) (q : Nat) (s : State) (v t n : Byte), tagBegins bs q ∧ bs[q + 6]? = some v ∧ bs[q + 7]? = some t ∧
      bs[q + 8]? = some n ∧ s.params.versionCheckAt = .atPrefix ∧ v = 0x01#8 ∧ bs.length - q + 1 = 10 + n.toNat) ∧
    (∃ (bs : List Byte) (q : Nat) (v t n : Byte), tagBegins bs q ∧ bs[q + 6]? = some v ∧ bs[q + 7]? = some t ∧
      bs[q + 8]? = some n ∧ 10 + n.toNat ≤ bs.length - q ∧ v ≠ 0x01#8) ∧
    (∃ (bs : List Byte) (q : Nat) (v t n c : Byte), tagBegins bs q ∧ bs[q + 6]? = some v ∧ bs[q + 7]? = some t ∧
      bs[q + 8]? = some n ∧ bs[q + 9 + n.toNat]? = some c ∧ v = 0x01#8 ∧
      (((bs.drop (q + 6)).take (3 + n.toNat)).map BitVec.toNat).sum % 256 ≠ c.toNat) ∧
    ∃ (bs : List Byte) (q : Nat) (v t n c : Byte), tagBegins bs q ∧ bs[q + 6]? = some v ∧ bs[q + 7]? = some t ∧
      bs[q + 8]? = some n ∧ bs[q + 9 + n.toNat]? = some c ∧ v = 0x01#8 ∧
      (((bs.drop (q + 6)).take (3 + n.toNat)).map BitVec.toNat).sum % 256 = c.toNat := by
  refine ⟨⟨[0x68#8, 0x69#8] ++ frameA, 2, by unfold tagAt; decide, rfl⟩,
    ⟨frameA, 1, fun h => absurd (startOk_iff.mpr h) (by decide), by decide⟩,
    ⟨frameA, 12, fun h => absurd (startOk_iff.mpr h) (by decide), rfl⟩,
    ⟨frameA.take 8, 0, startOk_iff.mp rfl, by decide, rfl⟩,
    ⟨frameV2.take 9, 0, State.resetWith atPrefix, 0x02#8, 0x01#8, 0x01#8, startOk_iff.mp rfl, rfl, rfl, rfl, rfl, by decide,
      rfl⟩,
    ⟨frameA.take 10, 0, State.resetWith atPrefix, 0x01#8, 0x01#8, 0x01#8, startOk_iff.mp rfl, rfl, rfl, rfl, rfl, rfl, rfl⟩,
    ⟨frameV2, 0, 0x02#8, 0x01#8, 0x01#8, startOk_iff.mp rfl, rfl, rfl, rfl, by decide, by decide⟩,
    ⟨frameA', 0, 0x01#8, 0x01#8, 0x01#8, 0x07#8, startOk_iff.mp rfl, rfl, rfl, rfl, rfl, rfl, by decide⟩,
    ⟨frameA, 0, 0x01#8, 0x01#8, 0x01#8, 0x06#8, startOk_iff.mp rfl, rfl, rfl, rfl, rfl, rfl, by decide⟩⟩

/-- Fewer than 9 bytes; one byte short of 10 + N; and a whole frame, which is not NeedMoreData. -/
theorem witness_NeedMoreDataExactlyWhenIncomplete :
    ∀ bs ∈ [frameA.take 8, frameA.take 10, frameA], tagBegins bs 0 := by
  intro bs h
  simp only [List.mem_cons, List.not_mem_nil, or_false] at h
  rcases h with rfl | rfl | rfl <;> exact startOk_iff.mp rfl

theorem witness_VerdictDependsOnlyOnTheCandidate :
    (∃ (c : List Byte) (q : Nat) (s : State) (v : Verdict),
      exec (.tryDecode c q) s = .next { s with results := s.results ++ [.ok (.verdict v)] } ∧ v = .needMoreData) ∧
    ∃ (c : List Byte) (q : Nat) (s : State) (v : Verdict), v ≠ .needMoreData ∧
      exec (.tryDecode c q) s = .next { s with results := s.results ++ [.ok (.verdict v)] } :=
  ⟨⟨frameA.take 8, 0, State.reset, _, rfl, rfl⟩, ⟨frameA, 0, State.reset, .valid recordA 11, by decide, rfl⟩⟩

theorem witness_EncodeThenDecodeReturnsTheFrame :
    ∃ (t : Byte) (p f : List Byte) (s : State),
      exec (.encodeFrame t p) s = .next { s with results := s.results ++ [.ok (.bytes f)] } :=
  ⟨0x01#8, [0x03#8], frameA, State.reset, rfl⟩

theorem witness_ValidFramesAreExactlyTheEncodedOnes :
    (∃ (f : List Byte) (s : State) (r : Frame), s.params.hasTxBuilder = true ∧ 10 ≤ f.length ∧
      exec (.tryDecode f 0) s = .next { s with results := s.results ++ [.ok (.verdict (.valid r f.length))] }) ∧
    ∃ (f : List Byte) (s : State) (t : Byte), s.params.hasTxBuilder = true ∧ 10 ≤ f.length ∧ f[7]? = some t ∧
      exec (.encodeFrame t ((f.drop 9).take (f.length - 10))) s =
        .next { s with results := s.results ++ [.ok (.bytes f)] } :=
  ⟨⟨frameA, State.reset, recordA, rfl, by decide, rfl⟩, ⟨frameA, State.reset, 0x01#8, rfl, by decide, rfl, rfl⟩⟩

/-- The first and the last byte that may be changed: the version byte and the checksum byte. -/
theorem witness_ChangingAByteOfAValidFrameMakesItInvalid :
    ∀ j ∈ [6, 10], ∃ (f : List Byte) (r : Frame) (s : State) (b : Byte),
      exec (.tryDecode f 0) s = .next { s with results := s.results ++ [.ok (.verdict (.valid r f.length))] } ∧
      6 ≤ j ∧ j ≠ 8 ∧ j < f.length ∧ f[j]? ≠ some b := by
  intro j hj
  simp only [List.mem_cons, List.not_mem_nil, or_false] at hj
  rcases hj with rfl | rfl <;>
    exact ⟨frameA, recordA, State.reset, 0x00#8, rfl, by decide, by decide, by decide, by decide⟩

/-- Arguments of 255 and of 256 bytes, and an instance without the TX builder. -/
theorem witness_EncodeCommandPrefixesTheArgument :
    (∃ (a : List Byte) (s : State), s.params.hasTxBuilder = true ∧ a.length ≤ 255 ∧ a.length = 255) ∧
    (∃ (a : List Byte) (s : State), s.params.hasTxBuilder = true ∧ 255 < a.length ∧ a.length = 256) ∧
    ∃ s : State, s.params.hasTxBuilder = false :=
  witness_EncodeFrameBuildsTheWireLayout

/-- Both strings of 255 bytes; an SSID of 256; a password of 256 after an SSID of 255; no TX builder. -/
theorem witness_EncodeWifiPrefixesBothStrings :
    (∃ (u w : List Byte) (s : State), s.params.hasTxBuilder = true ∧ u.length ≤ 255 ∧ w.length ≤ 255 ∧ u.length = 255 ∧
      w.length = 255) ∧
    (∃ (u : List Byte) (s : State), s.params.hasTxBuilder = true ∧ 255 < u.length ∧ u.length = 256) ∧
    (∃ (u w : List Byte) (s : State), s.params.hasTxBuilder = true ∧ u.length ≤ 255 ∧ 255 < w.length ∧ u.length = 255 ∧
      w.length = 256) ∧
    ∃ s : State, s.params.hasTxBuilder = false :=
  ⟨⟨List.replicate 255 0x61#8, List.replicate 255 0x62#8, State.reset, rfl, by decide +kernel,
      by decide +kernel, by decide +kernel, by decide +kernel⟩,
    ⟨List.replicate 256 0x61#8, State.reset, rfl, by decide +kernel, by decide +kernel⟩,
    ⟨List.replicate 255 0x61#8, List.replicate 256 0x62#8, State.reset, rfl, by decide +kernel,
      by decide +kernel, by decide +kernel, by decide +kernel⟩,
    ⟨State.resetWith noTx, rfl⟩⟩

/-- Arguments of 253, of 254 and 255, and of 256 bytes. -/
theorem witness_SendCmdFitsExactlyTo253Bytes :
    ∀ n ∈ [253, 254, 255, 256], ∃ (a : List Byte) (s : State), s.params.hasTxBuilder = true ∧ a.length = n :=
  fun n _ => ⟨List.replicate n 0x00#8, State.reset, rfl, by simp⟩

/-- Two strings of 251, 252, 253 and 254 bytes together, the longest, and one of 256 in either place. -/
theorem witness_SendWifiFitsExactlyTo251Bytes :
    ∀ n ∈ [(200, 51), (200, 52), (200, 53), (200, 54), (255, 255), (256, 0), (255, 256)],
      ∃ (u w : List Byte) (s : State), s.params.hasTxBuilder = true ∧ u.length = n.1 ∧ w.length = n.2 :=
  fun n _ => ⟨List.replicate n.1 0x61#8, List.replicate n.2 0x62#8, State.reset, rfl, by simp, by simp⟩

theorem witness_DecodeResultWalksTheValues : ∃ p : List Byte, p.length < 2 ∧ p.length = 1 := ⟨[0x03#8], by decide, rfl⟩

/-- A value of 255 bytes before it, and one byte short of the length asked for. -/
theorem witness_OverlongLastValueIsTruncated :
    ∃ (n : Byte) (vs : List (List Byte)) (tail : List Byte), (∀ v ∈ vs, v.length ≤ 255) ∧ tail.length < n.toNat ∧
      vs = [List.replicate 255 0x00#8] ∧ tail.length + 1 = n.toNat :=
  ⟨0x03#8, [List.replicate 255 0x00#8], [0x61#8, 0x62#8], by decide +kernel, by decide, rfl, rfl⟩

theorem witness_PrefixedValuesDecodeExactly :
    ∃ vs : List (List Byte), (∀ v ∈ vs, v.length ≤ 255) ∧ vs = [List.replicate 255 0x00#8, []] :=
  ⟨[List.replicate 255 0x00#8, []], by decide +kernel, rfl⟩

/-- Each byte of R98 at the ends of its clauses, under both maps, and payloads of 0 and 2 bytes. -/
theorem witness_DecodeStateNamesTheStateByte :
    (∀ m ∈ [StateMap.listed, .swapped], ∃ s : State, s.params.stateMap = m) ∧
    (∃ p : List Byte, p.length ≠ 1 ∧ p.length = 0) ∧ (∃ p : List Byte, p.length ≠ 1 ∧ p.length = 2) ∧
    ∀ b ∈ [0x00#8, 0x05#8, 0xFF#8], b = 0x00#8 ∨ 0x05 ≤ b.toNat :=
  ⟨fun m _ => ⟨State.resetWith { Params.standard with stateMap := m }, rfl⟩, ⟨[], by decide, rfl⟩,
    ⟨[0x03#8, 0x04#8], by decide, rfl⟩, by decide⟩

/-- The ends of the range of unrecognized error bytes, and payloads of 0 and 2 bytes. -/
theorem witness_DecodeErrorNamesTheErrorByte :
    (∃ p : List Byte, p.length ≠ 1 ∧ p.length = 0) ∧ (∃ p : List Byte, p.length ≠ 1 ∧ p.length = 2) ∧
    ∀ b ∈ [0x05#8, 0xFE#8], 0x05 ≤ b.toNat ∧ b.toNat ≤ 0xFE :=
  ⟨⟨[], by decide, rfl⟩, ⟨[0x03#8, 0x04#8], by decide, rfl⟩, by decide⟩

/-- No bound; just enough room; one byte short of it; and a set flag before another operation. -/
theorem witness_FeedAppendsWhatFits :
    (∃ (i : Instr) (s t : State), i ≠ .reset ∧ s.ovf = true ∧ exec i s = .next t) ∧
    (∃ s : State, s.params.bufCap = .unbounded) ∧
    (∃ (bs : List Byte) (s : State) (n : Nat), s.params.bufCap = .bounded n ∧ bs.length ≤ n - s.buf.length ∧
      bs.length = n - s.buf.length) ∧
    ∃ (bs : List Byte) (s : State) (n : Nat), s.params.bufCap = .bounded n ∧ n - s.buf.length < bs.length ∧
      n - s.buf.length + 1 = bs.length :=
  ⟨⟨.drain, lossyState .drain, _, by decide, rfl, rfl⟩, ⟨State.reset, rfl⟩,
    ⟨[0x01#8, 0x02#8, 0x03#8, 0x04#8], holdingWith cap16 helloWorld, 16, rfl, by decide, rfl⟩,
    ⟨[0x01#8, 0x02#8, 0x03#8, 0x04#8, 0x05#8], holdingWith cap16 helloWorld, 16, rfl, by decide, rfl⟩⟩

/-- A tag at 0 and at 2, and a sequence with a cut-off tag only. -/
theorem witness_FindMagicReturnsTheLeastWholeTag :
    (∀ x ∈ [(frameA.take 6, 0), ([0x68#8, 0x69#8] ++ frameA, 2)],
      x.2 + 6 ≤ x.1.length ∧ tagAt x.1 x.2 ∧ ∀ j, j < x.2 → ¬ tagAt x.1 j) ∧
    ∃ bs : List Byte, (∀ p, p + 6 ≤ bs.length → ¬ tagAt bs p) ∧ bs = frameA.take 5 := by
  constructor
  · intro x hx
    simp only [List.mem_cons, List.not_mem_nil, or_false] at hx
    rcases hx with rfl | rfl
    · exact ⟨by decide, findMagic_eq_some_iff.mp rfl⟩
    · exact ⟨by decide, findMagic_eq_some_iff.mp rfl⟩
  · exact ⟨_, fun p _ => findMagic_eq_none_iff.mp rfl p, rfl⟩

/-- No tag; and a first tag whose candidate is incomplete, Invalid and Valid. -/
theorem witness_StepTakesTheFirstTag :
    (∃ s : State, tagFree s.buf ∧ s.buf ≠ []) ∧
    ∀ x ∈ [(frameA.take 8, Verdict.needMoreData), (frameA', .invalid), (frameA, .valid recordA 11)],
      ∃ s : State, s.buf = [0x78#8] ++ x.1 ∧ firstTag s.buf 1 ∧
        exec (.tryDecode s.buf 1) s = .next { s with results := s.results ++ [.ok (.verdict x.2)] } := by
  refine ⟨⟨holding helloWorld, findMagic_eq_none_iff.mp rfl, by decide⟩, ?_⟩
  intro x hx
  simp only [List.mem_cons, List.not_mem_nil, or_false] at hx
  rcases hx with rfl | rfl | rfl
  · exact ⟨holding ([0x78#8] ++ frameA.take 8), rfl, findMagic_eq_some_iff.mp rfl, rfl⟩
  · exact ⟨holding ([0x78#8] ++ frameA'), rfl, findMagic_eq_some_iff.mp rfl, rfl⟩
  · exact ⟨holding ([0x78#8] ++ frameA), rfl, findMagic_eq_some_iff.mp rfl, rfl⟩

/-- States in which the first STEP stops, discards and emits. -/
theorem witness_DrainIsTheLoopOfSteps :
    ∀ x ∈ [(helloWorld, StepResult.stop .noMagic, helloWorld), (frameA', .discard, frameA'.drop 1), (frameA, .emit recordA, [])],
      ∃ s : State, exec .step s = .next { s with buf := x.2.2, results := s.results ++ [.ok (.step x.2.1)] } := by
  intro x hx
  simp only [List.mem_cons, List.not_mem_nil, or_false] at hx
  rcases hx with rfl | rfl | rfl
  · exact ⟨holding helloWorld, rfl⟩
  · exact ⟨holding frameA', rfl⟩
  · exact ⟨holding frameA, rfl⟩

theorem witness_StopAndDrainAreIdempotent :
    (∃ (s : State) (b : Memory) (reason : StopReason),
      exec .step s = .next { s with buf := b, results := s.results ++ [.ok (.step (.stop reason))] } ∧ s.buf ≠ []) ∧
    ∃ (s : State) (b : Memory) (fs : List Frame) (reason : StopReason),
      exec .drain s = .next { s with buf := b, results := s.results ++ [.ok (.drain fs reason)] } ∧ fs = [recordA] :=
  ⟨⟨holding (frameA.take 8), frameA.take 8, .needMoreData, rfl, by decide⟩,
    ⟨holding (frameA ++ frameB.take 8), frameB.take 8, [recordA], .needMoreData, rfl, rfl⟩⟩

/-- An Invalid candidate at offset 0 and at offset 2. -/
theorem witness_InvalidCandidateIsRetriedUntilItsFirstByteGoes :
    ∀ x ∈ [([], 0), ([0x78#8, 0x79#8], 2)], ∃ s : State, s.buf = x.1 ++ frameA' ++ frameB ∧ firstTag s.buf x.2 ∧
      exec (.tryDecode s.buf x.2) s = .next { s with results := s.results ++ [.ok (.verdict .invalid)] } := by
  intro x hx
  simp only [List.mem_cons, List.not_mem_nil, or_false] at hx
  rcases hx with rfl | rfl
  · exact ⟨holding ([] ++ frameA' ++ frameB), rfl, findMagic_eq_some_iff.mp rfl, rfl⟩
  · exact ⟨holding ([0x78#8, 0x79#8] ++ frameA' ++ frameB), rfl, findMagic_eq_some_iff.mp rfl, rfl⟩

/-- One byte short of 9; one byte short of 10 + N with version 01 under at_prefix; and V-DM-14's version 20 at completion. -/
theorem witness_PendingCandidateBlocksTheStream :
    (∃ (s : State) (p : Nat), firstTag s.buf p ∧ s.buf.length < p + 9 ∧ s.buf.length + 1 = p + 9) ∧
    (∃ (s : State) (p : Nat) (v n : Byte), firstTag s.buf p ∧ s.buf[p + 6]? = some v ∧ s.buf[p + 8]? = some n ∧
      s.buf.length < p + 10 + n.toNat ∧ v = 0x01#8 ∧ s.params.versionCheckAt = .atPrefix ∧
      s.buf.length + 1 = p + 10 + n.toNat) ∧
    ∃ (s : State) (p : Nat) (v n : Byte), firstTag s.buf p ∧ s.buf[p + 6]? = some v ∧ s.buf[p + 8]? = some n ∧
      s.buf.length < p + 10 + n.toNat ∧ v ≠ 0x01#8 ∧ s.params.versionCheckAt = .atComplete :=
  ⟨⟨holding ([0x78#8] ++ frameA.take 8), 1, findMagic_eq_some_iff.mp rfl, by decide, rfl⟩,
    ⟨holdingWith atPrefix (frameA.take 10), 0, 0x01#8, 0x01#8, findMagic_eq_some_iff.mp rfl, rfl, rfl, by decide, rfl, rfl, rfl⟩,
    ⟨holding (consoleText ++ frameA), 0, 0x20#8, 0x65#8, findMagic_eq_some_iff.mp rfl, rfl, rfl, by decide, by decide, rfl⟩⟩

/-- V-DM-04's stream: text, A, B, and text after it. -/
theorem witness_CleanStreamIsDecodedExactly :
    ∃ (xs : List (List Byte × Byte × List Byte)) (z : List Byte) (s : State),
      (∀ x ∈ xs, tagFree x.1 ∧ x.2.2.length ≤ 255) ∧ tagFree z ∧
      s.buf = xs.flatMap (fun x => x.1 ++ builtFrame x.2.1 x.2.2) ++ z ∧
      s.buf = [0x68#8, 0x69#8, 0x0A#8] ++ frameA ++ frameB ++ helloWorld := by
  refine ⟨[([0x68#8, 0x69#8, 0x0A#8], 0x01#8, [0x03#8]), ([], 0x01#8, [0x04#8])], helloWorld,
    holding ([0x68#8, 0x69#8, 0x0A#8] ++ frameA ++ frameB ++ helloWorld), ?_, findMagic_eq_none_iff.mp rfl, rfl, rfl⟩
  intro x hx
  simp only [List.mem_cons, List.not_mem_nil, or_false] at hx
  rcases hx with rfl | rfl
  · exact ⟨findMagic_eq_none_iff.mp rfl, by decide⟩
  · exact ⟨findMagic_eq_none_iff.mp rfl, by decide⟩

/-- V-DM-05's stream: A' and B. -/
theorem witness_CorruptedFrameIsSkipped :
    ∃ (t₁ t₂ c : Byte) (p₁ p₂ : List Byte) (s : State), p₁.length ≤ 255 ∧ p₂.length ≤ 255 ∧
      c ≠ (builtRecord t₁ p₁).checksum ∧
      (∀ j, 0 < j → ¬ tagAt ((builtFrame t₁ p₁).set (9 + p₁.length) c) j) ∧
      s.buf = (builtFrame t₁ p₁).set (9 + p₁.length) c ++ builtFrame t₂ p₂ ∧ s.buf = frameA' ++ frameB := by
  refine ⟨0x01#8, 0x01#8, 0x07#8, [0x03#8], [0x04#8], holding (frameA' ++ frameB), by decide, by decide, by decide, ?_, rfl, rfl⟩
  intro j hj h
  have h1 : tagFree (frameA'.drop 1) := findMagic_eq_none_iff.mp rfl
  refine h1 (j - 1) (tagAt_drop.mpr ?_)
  rwa [show 1 + (j - 1) = j by omega]

/-- A FEED that exactly fills BUF_CAP = 16, and an unbounded one. -/
theorem witness_ChunkingNeverChangesTheFrames :
    (∃ (y : List Byte) (s : State), feedFits y s ∧ s.params.bufCap = .bounded (s.buf.length + y.length)) ∧
    ∃ (y : List Byte) (s : State), feedFits y s ∧ s.params.bufCap = .unbounded := by
  refine ⟨⟨frameA.drop 5, holdingWith { cap16 with bufCap := .bounded 11 } (frameA.take 5), ?_, rfl⟩, ⟨frameA, State.reset, ?_, rfl⟩⟩
  · intro n h
    cases h
    decide
  · intro n h
    cases h

/-- A STEP that discards and one that emits. -/
theorem witness_FeedAndStepCommute :
    ∀ x ∈ [(frameA', StepResult.discard, frameA'.drop 1), (frameA, .emit recordA, [])],
      ∃ (y : List Byte) (s : State) (b : Memory) (r : StepResult), feedFits y s ∧ y ≠ [] ∧
        exec .step s = .next { s with buf := b, results := s.results ++ [.ok (.step r)] } ∧
        (∀ reason, r ≠ .stop reason) ∧ r = x.2.1 := by
  intro x hx
  simp only [List.mem_cons, List.not_mem_nil, or_false] at hx
  rcases hx with rfl | rfl
  · exact ⟨frameB, holding frameA', frameA'.drop 1, .discard, fun n h => (by cases h), by decide, rfl,
      fun _ h => (by cases h), rfl⟩
  · exact ⟨frameB, holding frameA, [], .emit recordA, fun n h => (by cases h), by decide, rfl, fun _ h => (by cases h), rfl⟩

theorem witness_FullBufferWithoutTagIsStuckUntilReset :
    ∃ (s : State) (n : Nat) (y : List Byte), s.params.bufCap = .bounded n ∧ s.buf.length = n ∧ tagFree s.buf ∧ y ≠ [] ∧
      n = 16 :=
  ⟨holdingWith cap16 full16, 16, frameB, rfl, rfl, findMagic_eq_none_iff.mp rfl, by decide, rfl⟩

/-- One operation issued and run, and another issued after it. -/
theorem witness_EveryOperationEndsAndIdleTimeChangesNothing :
    ∃ (is js : List Instr) (s : State), s.pending = is.map encode ∧ is.length = 1 ∧ js.length = 1 ∧ s.buf.length = 16 :=
  ⟨[.drain], [.reset], lossyState .drain, rfl, rfl, rfl, rfl⟩

end Sys2Proof.Tests
end

section
/-! PROOFS. The rules of BUF and OVF (10_state.md R19, R20): what each operation can do to either, said once of its effect. -/

namespace Sys2Proof.Machine

/-- The one next state of an operation is the one its effect gives. -/
theorem exec_eq_next_iff {i : Instr} {s t : State} :
    exec i s = .next t ↔ (effectOf i s.params s.buf s.ovf).apply s = t := by
  rw [exec_eq_effect, Host.Outcome.next.injEq]

/-! ### How many bytes a FEED keeps -/

/-- A FEED loses a byte exactly where a finite BUF_CAP has no room for all of them (R104, R105). -/
theorem keptBytes_lt_iff {cap : Capacity} {len n : Nat} :
    keptBytes cap len n < n ↔ ∃ c, cap = .bounded c ∧ c < len + n ∧ n ≠ 0 := by
  cases cap with
  | unbounded => simp [keptBytes]
  | bounded c =>
    simp only [keptBytes, Capacity.bounded.injEq, exists_eq_left']
    omega

/-- The bytes kept fit beside those already held. -/
theorem add_keptBytes_le {len c : Nat} (n : Nat) (h : len ≤ c) : len + keptBytes (.bounded c) len n ≤ c := by
  simp only [keptBytes]
  omega

/-! ### How many bytes a scan and a drain remove -/

theorem scan_count_le (v : VersionCheckAt) (buf : List Byte) : (scan v buf).2 ≤ buf.length := by
  by_cases h : ∃ r, (scan v buf).1 = .stop r
  · obtain ⟨r, hr⟩ := h
    simp [scan_stop hr]
  · exact (scan_progress (not_exists.mp h)).2

/-- A buffer left of what a scan left is left of the whole buffer. -/
theorem exists_drop_of_scan_drop {v : VersionCheckAt} {buf rest : List Byte} {r : StepResult} {k : Nat}
    (e : scan v buf = (r, k)) (h : ∃ j, j ≤ (buf.drop k).length ∧ rest = (buf.drop k).drop j) :
    ∃ j, j ≤ buf.length ∧ rest = buf.drop j := by
  obtain ⟨j, hj, rfl⟩ := h
  have hk := scan_count_le v buf
  rw [e] at hk
  rw [List.length_drop] at hj
  exact ⟨k + j, by omega, List.drop_drop⟩

/-- DRAIN removes bytes from the front only (R111). -/
theorem drainBuf_rest_eq_drop (v : VersionCheckAt) (buf : List Byte) :
    ∃ k, k ≤ buf.length ∧ (drainBuf v buf).rest = buf.drop k := by
  induction buf using drain_induction v with
  | stop buf r e =>
    rw [drainBuf_of_stop e]
    exact ⟨0, Nat.zero_le _, rfl⟩
  | discard buf k e ih =>
    rw [drainBuf_of_discard e]
    exact exists_drop_of_scan_drop e ih
  | emit buf f k e ih =>
    rw [drainBuf_of_emit e]
    exact exists_drop_of_scan_drop e ih

/-! ### What an operation can do to the buffer and to the flag -/

/-- Everything an operation can do to BUF (R19). -/
theorem effectOf_buf_cases (i : Instr) (p : Params) (buf : Memory) (ovf : Bool) :
    (∃ bs, i = .feed bs ∧
      (effectOf i p buf ovf).buf = buf ++ bs.take (keptBytes p.bufCap buf.length bs.length)) ∨
    (∃ k, (i = .step ∨ i = .drain) ∧ k ≤ buf.length ∧ (effectOf i p buf ovf).buf = buf.drop k) ∨
    (i = .reset ∧ (effectOf i p buf ovf).buf = []) ∨
    (i ≠ .step ∧ i ≠ .drain ∧ i ≠ .reset ∧ (∀ bs, i ≠ .feed bs) ∧ (effectOf i p buf ovf).buf = buf) := by
  cases i with
  | feed bs => exact .inl ⟨bs, rfl, rfl⟩
  | step => exact .inr (.inl ⟨_, .inl rfl, scan_count_le _ _, rfl⟩)
  | drain =>
    obtain ⟨k, hk, e⟩ := drainBuf_rest_eq_drop p.versionCheckAt buf
    exact .inr (.inl ⟨k, .inr rfl, hk, e⟩)
  | reset => exact .inr (.inr (.inl ⟨rfl, rfl⟩))
  | _ => exact .inr (.inr (.inr ⟨nofun, nofun, nofun, nofun, rfl⟩))

/-- Everything an operation can do to OVF (R20). -/
theorem effectOf_ovf_cases (i : Instr) (p : Params) (buf : Memory) (ovf : Bool) :
    (∃ bs, i = .feed bs ∧
      (effectOf i p buf ovf).ovf = (ovf || decide (keptBytes p.bufCap buf.length bs.length < bs.length))) ∨
    (i = .reset ∧ (effectOf i p buf ovf).ovf = false) ∨
    (i ≠ .reset ∧ (∀ bs, i ≠ .feed bs) ∧ (effectOf i p buf ovf).ovf = ovf) := by
  cases i with
  | feed bs => exact .inl ⟨bs, rfl, rfl⟩
  | reset => exact .inr (.inl ⟨rfl, rfl⟩)
  | _ => exact .inr (.inr ⟨nofun, nofun, rfl⟩)

/-- Only STATUS reads OVF (R20): what any other operation does to BUF, and its result, are the same under either value. -/
theorem effectOf_ovf_unread {i : Instr} (h : i ≠ .status) (p : Params) (buf : Memory) (o o' : Bool) :
    (effectOf i p buf o).buf = (effectOf i p buf o').buf ∧
      (effectOf i p buf o).result = (effectOf i p buf o').result := by
  cases i with
  | status => exact absurd rfl h
  | _ => exact ⟨rfl, rfl⟩

/-- No operation makes BUF longer than BUF_CAP (R19). -/
theorem apply_effectOf_bufWithinCap (i : Instr) {s : State} (h : s.bufWithinCap) :
    ((effectOf i s.params s.buf s.ovf).apply s).bufWithinCap := by
  intro c hc
  rw [apply_params] at hc
  have hlen : s.buf.length ≤ c := h c hc
  rw [apply_buf]
  obtain ⟨bs, -, e⟩ | ⟨k, -, -, e⟩ | ⟨-, e⟩ | ⟨-, -, -, -, e⟩ := effectOf_buf_cases i s.params s.buf s.ovf
  · rw [e, hc, List.length_append, List.length_take_of_le (keptBytes_le _ _ _)]
    exact add_keptBytes_le _ hlen
  · rw [e, List.length_drop]
    omega
  · simp [e]
  · rwa [e]

/-- Settles O10: the flag's three cases; a FEED is split on whether it loses a byte. -/
theorem overflowFlagIsSticky : Obligations.OverflowFlagIsSticky := by
  refine ⟨fun _ => rfl, ?_, fun _ => rfl, ?_⟩
  · intro i s t h
    rw [exec_eq_next_iff] at h
    subst h
    rw [apply_ovf]
    obtain ⟨bs, rfl, e⟩ | hreset | ⟨hr, hf, e⟩ := effectOf_ovf_cases i s.params s.buf s.ovf
    · rw [e]
      by_cases hk : keptBytes s.params.bufCap s.buf.length bs.length < bs.length
      · obtain ⟨n, hcap, hn, hne⟩ := keptBytes_lt_iff.mp hk
        exact .inr (.inl ⟨bs, n, rfl, hcap, hn, mt List.length_eq_zero_iff.mpr hne, by simp [hk]⟩)
      · refine .inr (.inr ⟨nofun, by simp [hk], ?_⟩)
        rintro _ n ⟨⟩ hcap
        by_contra! hn
        exact hk (keptBytes_lt_iff.mpr ⟨n, hcap, hn.1, mt List.length_eq_zero_iff.mp hn.2⟩)
    · exact .inl hreset
    · exact .inr (.inr ⟨hr, e, fun bs _ hi => absurd hi (hf bs)⟩)
  · intro i s hi
    refine ⟨(effectOf i s.params s.buf s.ovf).buf, (effectOf i s.params s.buf s.ovf).result, fun o =>
      ⟨(effectOf i s.params s.buf o).ovf, ?_⟩⟩
    obtain ⟨hbuf, hresult⟩ := effectOf_ovf_unread hi s.params s.buf o s.ovf
    rw [exec_eq_effect, Effect.apply, hbuf, hresult]

/-- Settles O13: the buffer's four cases, and the bound they keep. -/
theorem bufferGrowsAtTheBackAndShrinksAtTheFront : Obligations.BufferGrowsAtTheBackAndShrinksAtTheFront := by
  refine ⟨fun _ => rfl, fun i s t h => ?_⟩
  rw [exec_eq_next_iff] at h
  subst h
  refine ⟨apply_effectOf_bufWithinCap i, ?_⟩
  rw [apply_buf]
  exact (effectOf_buf_cases i s.params s.buf s.ovf).imp_left fun ⟨bs, hi, e⟩ => ⟨bs, _, hi, e⟩

end Sys2Proof.Machine
end

section
/-! PROOFS. The command port (30_encoding.md R65 to R67): what the decoder makes of a command, and what a step makes of what
the decoder answers. -/

namespace Sys2Proof

/-! ### The decoder on the commands of the map -/

/-- The map finds every operation under its own op code. -/
@[simp] theorem decodeOpcode_op_code (op : Op) : decodeOpcode op.code = some op := by
  cases op <;> rfl

/-- An operation takes the operands its row lists. -/
@[simp] theorem decodeOperands_op_operands (i : Instr) : decodeOperands i.op i.operands = some i := by
  cases i <;> rfl

theorem decode_encode (i : Instr) : decode (encode i) = .ok i := by
  simp [decode, encode]

/-! ### The decoder on the op codes outside the map -/

/-- An op code is illegal exactly where it is no operation's code (R67). -/
theorem decodeOpcode_eq_none_iff {b : Byte} : decodeOpcode b = none ↔ ∀ op : Op, op.code ≠ b := by
  constructor
  · rintro h op rfl
    simp at h
  · intro h
    by_contra hb
    obtain ⟨op, hop⟩ := Option.ne_none_iff_exists'.mp hb
    exact h op (decodeOpcode_code hop)

/-- An illegal op code is rejected before its operands are read (R130). -/
theorem decode_of_decodeOpcode_eq_none {c : Command} (h : decodeOpcode c.opcode = none) :
    decode c = .error (.illegalOpcode c.opcode) := by
  simp [decode, h]

/-- The op codes that R67 leaves unassigned, as ranges of numbers. -/
def inUnassignedRange (n : Nat) : Prop :=
  n = 0x00 ∨ (0x06 ≤ n ∧ n ≤ 0x0F) ∨ (0x14 ≤ n ∧ n ≤ 0x1F) ∨ (0x23 ≤ n ∧ n ≤ 0x2F) ∨ (0x33 ≤ n ∧ n ≤ 0xFF)

/-- No operation's code is in an unassigned range. -/
theorem not_inUnassignedRange_code (op : Op) : ¬ inUnassignedRange op.code.toNat := by
  unfold inUnassignedRange
  cases op <;> decide

theorem decodeOpcode_of_inUnassignedRange {b : Byte} (h : inUnassignedRange b.toNat) : decodeOpcode b = none := by
  rw [decodeOpcode_eq_none_iff]
  rintro op rfl
  exact not_inUnassignedRange_code op h

end Sys2Proof

namespace Sys2Proof.Machine

/-! ### A step with a command on the port -/

/-- A step issues the oldest command, in the state without it. -/
theorem step_of_pending_cons {s : State} {c : Command} {rest : List Command} (h : s.pending = c :: rest) :
    step s = issue c { s with pending := rest } := by
  simp [step, serveNext, takeCommand, h]

/-- What issuing a command that the decoder rejects as illegal does (R130). -/
theorem issue_of_illegalOpcode {c : Command} {b : Byte} (h : decode c = .error (.illegalOpcode b)) (s : State) :
    issue c s = raise (.illegal b) s := by
  simp [issue, h]

/-- Settles O5: the map is empty on the ranges, so the decoder rejects the command and the step raises E_ILLEGAL. -/
theorem unassignedOpcodeReturnsEIllegal : Obligations.UnassignedOpcodeReturnsEIllegal := by
  intro s c rest hpending hrange
  have hdecode : decode c = .error (.illegalOpcode c.opcode) :=
    decode_of_decodeOpcode_eq_none (decodeOpcode_of_inUnassignedRange hrange)
  refine ⟨hdecode, ?_, rfl⟩
  rw [step_of_pending_cons hpending, issue_of_illegalOpcode hdecode]
  rfl

/-- Settles O6: each row's command is the encoding of its operation. -/
theorem opcodeWordsDecodeAsTheMapSays : Obligations.OpcodeWordsDecodeAsTheMapSays := by
  intro s p a ssid pass c t start
  exact ⟨decode_encode (.feed s), decode_encode .step, decode_encode .drain, decode_encode .reset,
    decode_encode .status, decode_encode (.checksum s), decode_encode (.verify s c), decode_encode (.findMagic s),
    decode_encode (.tryDecode s start), decode_encode (.decodeResult p), decode_encode (.decodeState p),
    decode_encode (.decodeError p), decode_encode (.encodeFrame t p), decode_encode (.encodeCommand c a),
    decode_encode (.encodeWifi ssid pass)⟩

end Sys2Proof.Machine
end

section
/-! PROOFS. The checksum unit (40_checksum.md R73, R74): CHECKSUM, VERIFY, and the comparison VERIFY shares with the frame
decoder. -/

namespace Sys2Proof.Machine

/-! ### The sum modulo 256 -/

/-- The sum byte is the byte `c` exactly where the sum modulo 256 is the number of `c` (R12). -/
theorem sum8_eq_iff {bs : List Byte} {c : Byte} : sum8 bs = c ↔ byteSum bs % 256 = c.toNat := by
  rw [← BitVec.toNat_inj, sum8_toNat]

/-! ### What CHECKSUM, VERIFY and TRY_DECODE deliver -/

/-- The state after a result tells which result it was. -/
theorem next_deliver_inj {r r' : Result} {s : State} :
    (Host.Outcome.next (deliver r s) : Outcome) = .next (deliver r' s) ↔ r = r' := by
  simp [deliver]

theorem exec_checksum (bs : List Byte) (s : State) : exec (.checksum bs) s = .next (deliver (.ok (.byte (sum8 bs))) s) :=
  rfl

theorem exec_verify (bs : List Byte) (c : Byte) (s : State) :
    exec (.verify bs c) s = .next (deliver (.ok (.bool (decide (byteSum bs % 256 = c.toNat)))) s) := by
  have h : (sum8 bs == c) = decide (byteSum bs % 256 = c.toNat) := decide_eq_decide.mpr sum8_eq_iff
  rw [← h]
  rfl

/-- VERIFY answers true exactly where the sum byte is the expected byte (R74). -/
theorem exec_verify_true_iff {bs : List Byte} {c : Byte} {s : State} :
    exec (.verify bs c) s = .next (deliver (.ok (.bool true)) s) ↔ sum8 bs = c := by
  rw [exec_verify, next_deliver_inj, sum8_eq_iff]
  simp

/-- Where its precondition holds, TRY_DECODE delivers the verdict (R78, R79). -/
theorem exec_tryDecode_of_tagBegins {bs : List Byte} {q : Nat} (h : tagBegins bs q) (s : State) :
    exec (.tryDecode bs q) s = .next (deliver (.ok (.verdict (tryDecode s.params.versionCheckAt bs q))) s) :=
  if_pos (startOk_iff.mpr h)

/-- TRY_DECODE answers Valid exactly where the verdict does. -/
theorem exec_tryDecode_valid_iff {bs : List Byte} {q k : Nat} {f : Frame} {s : State} (h : tagBegins bs q) :
    exec (.tryDecode bs q) s = .next (deliver (.ok (.verdict (.valid f k))) s) ↔
      tryDecode s.params.versionCheckAt bs q = .valid f k := by
  rw [exec_tryDecode_of_tagBegins h, next_deliver_inj]
  simp

/-! ### A whole candidate, read byte by byte -/

theorem byteAt_of_getElem? {s : List Byte} {i : Nat} {b : Byte} (h : s[i]? = some b) : byteAt s i = b := by
  simp [byteAt, h]

/-- The checksum of a candidate covers the `3 + N` bytes from offset 6 on (R55, R77). -/
theorem candidateCovered_eq_take_drop (s : List Byte) (q : Nat) :
    candidateCovered s q = (s.drop (q + 6)).take (3 + (candidateLength s q).toNat) := by
  have hlen : q + 9 + (candidateLength s q).toNat - (q + 6) = 3 + (candidateLength s q).toNat := by omega
  rw [candidateCovered, slice, hlen]

/-- On a whole candidate of version 01, the verdict is Valid exactly where the covered bytes sum to the checksum byte
(R81, R82, R84): both other tests of the decoder have passed. -/
theorem exists_tryDecode_valid_iff {v : VersionCheckAt} {s : List Byte} {q : Nat}
    (hver : candidateVersion s q = wireVersion) (hwhole : 10 + (candidateLength s q).toNat ≤ s.length - q) :
    (∃ f k, tryDecode v s q = .valid f k) ↔ sum8 (candidateCovered s q) = candidateChecksum s q := by
  constructor
  · rintro ⟨f, k, h⟩
    obtain ⟨-, -, hsum, -, -⟩ := tryDecode_valid_iff.mp h
    exact hsum
  · intro hsum
    exact ⟨_, _, tryDecode_valid_iff.mpr ⟨hwhole, hver, hsum, rfl, rfl⟩⟩

/-- Settles O19: the byte is the sum byte. -/
theorem checksumIsTheSumModulo256 : Obligations.ChecksumIsTheSumModulo256 :=
  ⟨fun bs => decode_encode (.checksum bs), fun bs s => ⟨sum8 bs, sum8_toNat bs, exec_checksum bs s⟩⟩

/-- Settles O20: on a whole candidate of version 01, VERIFY's true and the verdict Valid both say that the covered bytes sum to
the checksum byte. -/
theorem verifyComparesTheSum : Obligations.VerifyComparesTheSum := by
  refine ⟨fun bs c => decode_encode (.verify bs c), exec_verify, ?_, ?_⟩
  · intro c s
    have h : byteSum [] % 256 = c.toNat ↔ c = 0x00#8 := by
      rw [← sum8_eq_iff, eq_comm]
      rfl
    rw [exec_verify, decide_eq_decide.mpr h]
    rfl
  · intro bs q n c s htag hver hlen hsum
    obtain rfl : candidateLength bs q = n := byteAt_of_getElem? hlen
    obtain rfl : candidateChecksum bs q = c := byteAt_of_getElem? hsum
    obtain ⟨hlast, -⟩ := List.getElem?_eq_some_iff.mp hsum
    have hwhole : 10 + (candidateLength bs q).toNat ≤ bs.length - q := by omega
    have hverdict := exists_tryDecode_valid_iff (v := s.params.versionCheckAt) (byteAt_of_getElem? hver) hwhole
    rw [← candidateCovered_eq_take_drop]
    calc exec (.verify (candidateCovered bs q) (candidateChecksum bs q)) s = .next (deliver (.ok (.bool true)) s)
        ↔ sum8 (candidateCovered bs q) = candidateChecksum bs q := exec_verify_true_iff
      _ ↔ ∃ f k, tryDecode s.params.versionCheckAt bs q = .valid f k := hverdict.symm
      _ ↔ ∃ f k, exec (.tryDecode bs q) s = .next (deliver (.ok (.verdict (.valid f k))) s) :=
        exists₂_congr fun _ _ => (exec_tryDecode_valid_iff htag).symm

end Sys2Proof.Machine
end

section
/-! PROOFS. The frame codec (41_frame_codec.md R78 to R84, R86): what TRY_DECODE and ENCODE_FRAME deliver. -/

namespace Sys2Proof.Machine

/-! ### TRY_DECODE delivers the verdict, or E_START -/

/-- Where its precondition holds, TRY_DECODE answers with exactly the verdict (R78, R79). -/
theorem exec_tryDecode_verdict_iff {bs : List Byte} {q : Nat} {w : Verdict} {s : State} (h : tagBegins bs q) :
    exec (.tryDecode bs q) s = .next (deliver (.ok (.verdict w)) s) ↔ tryDecode s.params.versionCheckAt bs q = w := by
  rw [exec_tryDecode_of_tagBegins h, next_deliver_inj]
  simp

/-- Where its precondition fails, TRY_DECODE raises E_START with the offset (R78, R129). -/
theorem exec_tryDecode_of_not_tagBegins {bs : List Byte} {q : Nat} (h : ¬ tagBegins bs q) (s : State) :
    exec (.tryDecode bs q) s = .next (deliver (.error (.start q)) s) :=
  if_neg (mt startOk_iff.mp h)

/-! ### The fields of a candidate, read off the bytes -/

/-- The payload of a candidate is the `N` bytes from offset 9 on (R52, R77). -/
theorem candidatePayload_eq_take_drop (s : List Byte) (q : Nat) :
    candidatePayload s q = (s.drop (q + 9)).take (candidateLength s q).toNat := by
  rw [candidatePayload, slice, Nat.add_sub_cancel_left]

/-- The checksum test, as a sum of numbers (R82). -/
theorem sum8_candidateCovered_eq_iff {s : List Byte} {q : Nat} {c : Byte} :
    sum8 (candidateCovered s q) = c ↔
      (((s.drop (q + 6)).take (3 + (candidateLength s q).toNat)).map BitVec.toNat).sum % 256 = c.toNat := by
  rw [candidateCovered_eq_take_drop]
  exact sum8_eq_iff

/-- Settles O25: the fields named are the candidate's, and each clause is one case of one of the three verdicts. -/
theorem tryDecodeClassifiesTheCandidate : Obligations.TryDecodeClassifiesTheCandidate := by
  refine ⟨fun bs q => decode_encode (.tryDecode bs q), fun _ _ htag => startOk_iff.mp (startOk_of_tagAt htag), ?_⟩
  intro bs q s
  refine ⟨fun hno => exec_tryDecode_of_not_tagBegins hno s,
    fun htag hshort => (exec_tryDecode_verdict_iff htag).mpr (tryDecode_needMoreData_iff.mpr (.inl hshort)), ?_⟩
  intro v t n htag hv ht hn
  have answers {w : Verdict} := (exec_tryDecode_verdict_iff (w := w) (s := s) htag).mpr
  obtain ⟨hprefix, -⟩ := List.getElem?_eq_some_iff.mp hn
  obtain rfl : candidateVersion bs q = v := byteAt_of_getElem? hv
  obtain rfl : candidateType bs q = t := byteAt_of_getElem? ht
  obtain rfl : candidateLength bs q = n := byteAt_of_getElem? hn
  refine ⟨?badVersionAtPrefix, ?tooShort, ?badVersion, ?sums⟩
  case badVersionAtPrefix =>
    intro hat hver
    exact answers (tryDecode_invalid_iff.mpr (.inl ⟨by omega, hat, hver⟩))
  case tooShort =>
    intro hver hshort
    exact answers (tryDecode_needMoreData_iff.mpr (.inr ⟨hshort, fun ⟨hat, hne⟩ => hne (hver hat)⟩))
  case badVersion =>
    intro hwhole hver
    exact answers (tryDecode_invalid_iff.mpr (.inr ⟨hwhole, .inl hver⟩))
  case sums =>
    intro c hc hver
    obtain ⟨hlast, -⟩ := List.getElem?_eq_some_iff.mp hc
    have hwhole : 10 + (candidateLength bs q).toNat ≤ bs.length - q := by omega
    obtain rfl : candidateChecksum bs q = c := byteAt_of_getElem? hc
    constructor
    · intro hsum
      exact answers (tryDecode_invalid_iff.mpr (.inr ⟨hwhole, .inr (mt sum8_candidateCovered_eq_iff.mp hsum)⟩))
    · intro hsum
      rw [← candidatePayload_eq_take_drop]
      exact answers (tryDecode_valid_iff.mpr ⟨hwhole, hver, sum8_candidateCovered_eq_iff.mpr hsum, rfl, rfl⟩)

/-- Settles O26: from 9 bytes on the version and the length byte are present, and they are the candidate's fields. -/
theorem needMoreDataExactlyWhenIncomplete : Obligations.NeedMoreDataExactlyWhenIncomplete := by
  intro bs q s htag
  refine (exec_tryDecode_verdict_iff htag).trans (tryDecode_needMoreData_iff.trans (or_congr_right' fun hprefix => ?_))
  have hver : bs[q + 6]? = some (candidateVersion bs q) := getElem?_eq_some_byteAt (by omega)
  have hlen : bs[q + 8]? = some (candidateLength bs q) := getElem?_eq_some_byteAt (by omega)
  simp [hver, hlen, wireVersion]

/-! ### The checks of the TX builder -/

theorem needTxBuilder_of_present {s : State} (h : s.params.hasTxBuilder = true) (k : Outcome) : needTxBuilder s k = k :=
  if_pos h

theorem needTxBuilder_of_absent {s : State} (h : s.params.hasTxBuilder = false) (k : Outcome) :
    needTxBuilder s k = raise .noTx s :=
  if_neg (Bool.eq_false_iff.mp h)

theorem needFits_of_le {bs : List Byte} (h : bs.length ≤ 255) (s : State) (k : Outcome) : needFits bs s k = k :=
  if_neg (Nat.not_lt.mpr h)

theorem needFits_of_lt {bs : List Byte} (h : 255 < bs.length) (s : State) (k : Outcome) :
    needFits bs s k = raise (.len bs.length) s :=
  if_pos h

/-! ### The bytes of a built frame -/

/-- The checksum of a built frame, with the length added as a number: its byte is the same modulo 256 (R55, R86). -/
theorem sum8_frameBody (t : Byte) (p : List Byte) :
    sum8 (frameBody t p) = BitVec.ofNat 8 (1 + t.toNat + p.length + (p.map BitVec.toNat).sum) := by
  rw [sum8_eq_iff, BitVec.toNat_ofNat]
  have hbody : byteSum (frameBody t p) = 1 + (t.toNat + (p.length % 256 + byteSum p)) := by
    simp [frameBody, wireVersion, lengthByte]
  rw [hbody, byteSum]
  omega

/-- The encoder lays a frame out as the wire does (R46, R86). -/
theorem frameBytes_eq_builtFrame (t : Byte) (p : List Byte) : frameBytes t p = builtFrame t p := by
  rw [frameBytes, sum8_frameBody]
  simp [frameBody, builtFrame, magic, wireVersion, lengthByte]

theorem builtFrame_length (t : Byte) (p : List Byte) : (builtFrame t p).length = 10 + p.length := by
  simp [builtFrame]
  omega

theorem exec_encodeFrame (t : Byte) (p : List Byte) (s : State) :
    exec (.encodeFrame t p) s = needTxBuilder s (needFits p s (ret (.bytes (builtFrame t p)) s)) := by
  rw [← frameBytes_eq_builtFrame]
  rfl

/-- Settles O23: the two checks of the TX builder, and the encoder's bytes as the wire layout. -/
theorem encodeFrameBuildsTheWireLayout : Obligations.EncodeFrameBuildsTheWireLayout := by
  refine ⟨fun t p => decode_encode (.encodeFrame t p), ?fits, ?tooLong, ?noTxBuilder⟩
  case fits =>
    intro t p s htx hfits
    rw [exec_encodeFrame, needTxBuilder_of_present htx, needFits_of_le hfits]
    exact ⟨rfl, builtFrame_length t p⟩
  case tooLong =>
    intro t p s htx hlong
    rw [exec_encodeFrame, needTxBuilder_of_present htx, needFits_of_lt hlong]
    rfl
  case noTxBuilder =>
    intro t p s htx
    rw [exec_encodeFrame, needTxBuilder_of_absent htx]
    rfl

end Sys2Proof.Machine
end

section
/-! PROOFS. The RPC codec and the payload interpreters (42_rpc_codec.md R89, R91, R94 to R96, R98 to R100): what the walk reads,
and what each of the five operations delivers. -/

namespace Sys2Proof.Machine

/-! ### The walk, along the bytes that remain (R94) -/

/-- The walk does not look back: the bytes before its offset play no part. -/
theorem valueWalkBounded_drop (p : List Byte) (k n : Nat) :
    ∀ i, valueWalkBounded (p.drop k) n i = valueWalkBounded p n (k + i) := by
  induction n with
  | zero => exact fun _ => rfl
  | succ n ih =>
    intro i
    simp only [valueWalkBounded, byteAt_drop, slice_drop, List.length_drop, ih, ← Nat.add_assoc]
    by_cases hdone : k + i ≥ p.length
    · rw [if_pos hdone, if_pos (by omega)]
    · have hend : k + min (i + 1 + (byteAt p (k + i)).toNat) (p.length - k) =
          min (k + i + 1 + (byteAt p (k + i)).toNat) p.length := by omega
      rw [if_neg hdone, if_neg (by omega), hend]

/-- The walk from an offset is the walk of the bytes from that offset on. -/
theorem valueWalk_drop_zero (p : List Byte) (k : Nat) : valueWalk (p.drop k) 0 = valueWalk p k := by
  rw [valueWalk, valueWalk, valueWalkBounded_drop, List.length_drop]
  rfl

@[simp] theorem valueWalk_nil : valueWalk [] 0 = [] := rfl

/-- One round of the walk: a value of up to as many bytes as the length byte says, then what follows them. -/
theorem valueWalk_cons (n : Byte) (tail : List Byte) :
    valueWalk (n :: tail) 0 = tail.take n.toNat :: valueWalk (tail.drop n.toNat) 0 := by
  have hvalue : slice (n :: tail) 1 (min (1 + n.toNat) (tail.length + 1)) = tail.take n.toNat := by
    rw [slice, List.drop_one, List.tail_cons, List.take_eq_take_iff]
    omega
  have hrest : tail.drop n.toNat = (n :: tail).drop (1 + n.toNat) := by
    rw [Nat.add_comm, List.drop_succ_cons]
  rw [valueWalk_eq, if_neg (by simp), hrest, valueWalk_drop_zero, ← hvalue]
  simp [byteAt]

/-- The walk reads a whole value off its length byte. -/
theorem valueWalk_prefixedValue {v : List Byte} (h : v.length ≤ 255) (rest : List Byte) :
    valueWalk (BitVec.ofNat 8 v.length :: v ++ rest) 0 = v :: valueWalk rest 0 := by
  have hlen : (BitVec.ofNat 8 v.length).toNat = v.length := lengthByte_toNat h
  rw [List.cons_append, valueWalk_cons, hlen, List.take_left, List.drop_left]

/-- The walk reads well-formed values one by one, and then goes on with the rest. -/
theorem valueWalk_prefixedValues_append {vs : List (List Byte)} (h : ∀ v ∈ vs, v.length ≤ 255) (rest : List Byte) :
    valueWalk (prefixedValues vs ++ rest) 0 = vs ++ valueWalk rest 0 := by
  induction vs with
  | nil => rfl
  | cons v vs ih =>
    obtain ⟨hv, hvs⟩ := List.forall_mem_cons.mp h
    rw [prefixedValues, List.flatMap_cons, List.append_assoc, valueWalk_prefixedValue hv, List.cons_append]
    exact congrArg _ (ih hvs)

/-- A last value that is shorter than its length byte says is the bytes that remain (R96). -/
theorem valueWalk_overlong {n : Byte} {tail : List Byte} (h : tail.length < n.toNat) :
    valueWalk (n :: tail) 0 = [tail] := by
  rw [valueWalk_cons, List.take_of_length_le h.le, List.drop_of_length_le h.le, valueWalk_nil]

/-! ### DECODE_RESULT -/

theorem exec_decodeResult_of_short {p : List Byte} (h : p.length < 2) (s : State) :
    exec (.decodeResult p) s = .next (deliver (.error (.rpcShort p.length)) s) :=
  if_pos h

theorem exec_decodeResult_of_two_le {p : List Byte} (h : 2 ≤ p.length) (s : State) :
    exec (.decodeResult p) s = .next (deliver (.ok (.rpcResult { command := byteAt p 0, values := valueWalk p 2 })) s) :=
  if_neg (Nat.not_lt.mpr h)

/-- DECODE_RESULT delivers the first byte and the walk of what follows the second (R95). -/
theorem exec_decodeResult_cons_cons (c d : Byte) (body : List Byte) (s : State) :
    exec (.decodeResult (c :: d :: body)) s =
      .next (deliver (.ok (.rpcResult { command := c, values := valueWalk body 0 })) s) := by
  have hwalk : valueWalk body 0 = valueWalk (c :: d :: body) 2 := valueWalk_drop_zero (c :: d :: body) 2
  rw [hwalk]
  exact exec_decodeResult_of_two_le (p := c :: d :: body) (Nat.le_add_left 2 body.length) s

/-- Settles O35: the walk of the bytes after the second, by its two equations. -/
theorem decodeResultWalksTheValues : Obligations.DecodeResultWalksTheValues := by
  refine ⟨fun p => decode_encode (.decodeResult p), fun p s hshort => exec_decodeResult_of_short hshort s, ?_⟩
  intro c d s
  refine ⟨exec_decodeResult_cons_cons c d [] s, fun n tail => ?_⟩
  refine ⟨valueWalk (tail.drop n.toNat) 0, exec_decodeResult_cons_cons c d _ s, ?_⟩
  rw [exec_decodeResult_cons_cons, valueWalk_cons]
  rfl

/-- Settles O36: the walk reads the values, and then one that is cut off. -/
theorem overlongLastValueIsTruncated : Obligations.OverlongLastValueIsTruncated := by
  intro c d n vs tail s hvs hover
  rw [exec_decodeResult_cons_cons, valueWalk_prefixedValues_append hvs, valueWalk_overlong hover]
  rfl

/-! ### ENCODE_COMMAND and ENCODE_WIFI -/

theorem exec_encodeCommand (c : Byte) (a : List Byte) (s : State) :
    exec (.encodeCommand c a) s =
      needTxBuilder s (needFits a s (ret (.bytes (c :: BitVec.ofNat 8 a.length :: a)) s)) :=
  rfl

theorem exec_encodeWifi (u w : List Byte) (s : State) :
    exec (.encodeWifi u w) s = needTxBuilder s (needFits u s (needFits w s
      (ret (.bytes (BitVec.ofNat 8 u.length :: u ++ BitVec.ofNat 8 w.length :: w)) s))) := by
  rw [← List.singleton_append, ← List.singleton_append (l := w), ← List.append_assoc]
  rfl

/-- Settles O31: the two checks of the TX builder. -/
theorem encodeCommandPrefixesTheArgument : Obligations.EncodeCommandPrefixesTheArgument := by
  refine ⟨fun c a => decode_encode (.encodeCommand c a), fun c a s => ?_⟩
  rw [exec_encodeCommand]
  refine ⟨?fits, ?tooLong, ?noTxBuilder⟩
  case fits =>
    intro htx hfits
    rw [needTxBuilder_of_present htx, needFits_of_le hfits]
    rfl
  case tooLong =>
    intro htx hlong
    rw [needTxBuilder_of_present htx, needFits_of_lt hlong]
    rfl
  case noTxBuilder => exact fun htx => needTxBuilder_of_absent htx _

/-- Settles O32: the TX builder's checks, the SSID's before the password's. -/
theorem encodeWifiPrefixesBothStrings : Obligations.EncodeWifiPrefixesBothStrings := by
  refine ⟨fun u w => decode_encode (.encodeWifi u w), fun u w s => ?_⟩
  rw [exec_encodeWifi]
  refine ⟨?fits, ?ssidTooLong, ?passwordTooLong, ?noTxBuilder⟩
  case fits =>
    intro htx hu hw
    rw [needTxBuilder_of_present htx, needFits_of_le hu, needFits_of_le hw]
    rfl
  case ssidTooLong =>
    intro htx hu
    rw [needTxBuilder_of_present htx, needFits_of_lt hu]
    rfl
  case passwordTooLong =>
    intro htx hu hw
    rw [needTxBuilder_of_present htx, needFits_of_le hu, needFits_of_lt hw]
    rfl
  case noTxBuilder => exact fun htx => needTxBuilder_of_absent htx _

/-! ### DECODE_STATE and DECODE_ERROR -/

theorem needOneByte_of_length_ne {p : List Byte} (h : p.length ≠ 1) (s : State) (k : Byte → Outcome) :
    needOneByte p s k = raise (.payload p.length) s := by
  obtain ⟨b, rfl, -⟩ | ⟨-, e⟩ := needOneByte_eq p s k
  · exact absurd rfl h
  · exact e

theorem exec_decodeState_of_length_ne {p : List Byte} (h : p.length ≠ 1) (s : State) :
    exec (.decodeState p) s = raise (.payload p.length) s :=
  needOneByte_of_length_ne h s _

theorem exec_decodeState_singleton (b : Byte) (s : State) :
    exec (.decodeState [b]) s = ret (.deviceState (deviceStateOf s.params.stateMap b)) s :=
  rfl

theorem exec_decodeError_of_length_ne {p : List Byte} (h : p.length ≠ 1) (s : State) :
    exec (.decodeError p) s = raise (.payload p.length) s :=
  needOneByte_of_length_ne h s _

theorem exec_decodeError_singleton (b : Byte) (s : State) :
    exec (.decodeError [b]) s = ret (.deviceError (deviceErrorOf b)) s :=
  rfl

/-- A state byte other than 01 to 04 has no name under either map (R98). -/
theorem deviceStateOf_of_unnamed (m : StateMap) {b : Byte} (h : b = 0x00#8 ∨ 0x05 ≤ b.toNat) :
    deviceStateOf m b = .unrecognizedState b := by
  have hne : b ≠ 0x03#8 ∧ b ≠ 0x04#8 ∧ b ≠ 0x01#8 ∧ b ≠ 0x02#8 := by bv_omega
  obtain ⟨h3, h4, h1, h2⟩ := hne
  rw [deviceStateOf.eq_def, if_neg h3, if_neg h4, if_neg h1, if_neg h2]

/-- An error byte from 05 to FE has no name (R99). -/
theorem deviceErrorOf_of_unnamed {b : Byte} (hlo : 0x05 ≤ b.toNat) (hhi : b.toNat ≤ 0xFE) :
    deviceErrorOf b = .unrecognizedError b := by
  have hne : b ≠ 0x00#8 ∧ b ≠ 0x01#8 ∧ b ≠ 0x02#8 ∧ b ≠ 0x03#8 ∧ b ≠ 0x04#8 ∧ b ≠ 0xFF#8 := by bv_omega
  obtain ⟨h0, h1, h2, h3, h4, hFF⟩ := hne
  rw [deviceErrorOf, if_neg h0, if_neg h1, if_neg h2, if_neg h3, if_neg h4, if_neg hFF]

/-- Settles O38: the named bytes are read off the table, the two the map tells apart after it is known. -/
theorem decodeStateNamesTheStateByte : Obligations.DecodeStateNamesTheStateByte := by
  refine ⟨fun p => decode_encode (.decodeState p), fun p s hlen => exec_decodeState_of_length_ne hlen s, ?_⟩
  intro b s
  refine ⟨_, exec_decodeState_singleton b s, ?provisioning, ?provisioned, ?one, ?oneSwapped, ?two, ?twoSwapped,
    deviceStateOf_of_unnamed _⟩
  case provisioning | provisioned =>
    rintro rfl
    rfl
  case one | oneSwapped | two | twoSwapped =>
    rintro rfl hmap
    rw [hmap]
    rfl

/-- Settles O39: the named bytes are read off the table. -/
theorem decodeErrorNamesTheErrorByte : Obligations.DecodeErrorNamesTheErrorByte := by
  refine ⟨fun p => decode_encode (.decodeError p), fun p s hlen => exec_decodeError_of_length_ne hlen s, ?_⟩
  intro b s
  refine ⟨_, exec_decodeError_singleton b s, ?none, ?invalidRpc, ?unknownRpc, ?unableToConnect, ?notAuthorized, ?unknown,
    deviceErrorOf_of_unnamed⟩
  case none | invalidRpc | unknownRpc | unableToConnect | notAuthorized | unknown =>
    rintro rfl
    rfl

end Sys2Proof.Machine
end

section
/-! PROOFS. The stream demultiplexer (43_stream_demux.md R104 to R111): what FEED, FIND_MAGIC, STEP and DRAIN deliver, each
through the law of its own function. -/

namespace Sys2Proof.Machine

/-! ### FEED -/

/-- A FEED that keeps all its bytes returns OK (R104). -/
theorem exec_feed_of_kept_eq {bs : List Byte} {s : State}
    (h : keptBytes s.params.bufCap s.buf.length bs.length = bs.length) :
    exec (.feed bs) s = .next { s with buf := s.buf ++ bs, results := s.results ++ [.ok .none] } := by
  simp [exec_eq_effect, effectOf, Effect.apply, h]

/-- A FEED that keeps only the first `k` bytes sets OVF and counts the others (R104, R105). -/
theorem exec_feed_of_kept_lt {bs : List Byte} {s : State} {k : Nat}
    (h : keptBytes s.params.bufCap s.buf.length bs.length = k) (hk : k < bs.length) :
    exec (.feed bs) s = .next { s with
      buf := s.buf ++ bs.take k
      ovf := true
      results := s.results ++ [.error (.ovf (bs.length - k))] } := by
  simp [exec_eq_effect, effectOf, Effect.apply, h, hk, Nat.sub_ne_zero_of_lt hk]

/-- No operation but RESET clears OVF (R20, R105). -/
theorem effectOf_ovf_sticky {i : Instr} (h : i ≠ .reset) (p : Params) (buf : Memory) :
    (effectOf i p buf true).ovf = true := by
  obtain ⟨bs, -, e⟩ | ⟨hreset, -⟩ | ⟨-, -, e⟩ := effectOf_ovf_cases i p buf true
  · rw [e, Bool.true_or]
  · exact absurd hreset h
  · exact e

/-- Settles O40: the bytes kept are all of them, or the room left where that is less. -/
theorem feedAppendsWhatFits : Obligations.FeedAppendsWhatFits := by
  refine ⟨fun bs => decode_encode (.feed bs), ?sticky, fun bs s => ⟨?unbounded, fun n hcap => ⟨?fits, ?overflows⟩⟩⟩
  case sticky =>
    intro i s t hi hovf h
    rw [exec_eq_next_iff, hovf] at h
    subst h
    exact effectOf_ovf_sticky hi s.params s.buf
  case unbounded =>
    intro hcap
    exact exec_feed_of_kept_eq (by rw [hcap, keptBytes])
  case fits =>
    intro hroom
    exact exec_feed_of_kept_eq (by rw [hcap, keptBytes, Nat.min_eq_left hroom])
  case overflows =>
    intro hroom
    exact exec_feed_of_kept_lt (by rw [hcap, keptBytes, Nat.min_eq_right hroom.le]) hroom

/-! ### FIND_MAGIC -/

theorem exec_findMagic_of_eq {bs : List Byte} {o : Option Nat} (h : findMagic bs = o) (s : State) :
    exec (.findMagic bs) s = .next { s with results := s.results ++ [.ok (.offset o)] } := by
  subst h
  rfl

/-- Settles O42: the search finds the first tag, and nothing exactly where no tag stands; a tag that stands is whole. -/
theorem findMagicReturnsTheLeastWholeTag : Obligations.FindMagicReturnsTheLeastWholeTag := by
  refine ⟨fun bs => decode_encode (.findMagic bs), ?found, ?absent⟩
  case found =>
    intro bs p s _ htag hleast
    exact exec_findMagic_of_eq (findMagic_eq_some_iff.mpr ⟨htag, hleast⟩) s
  case absent =>
    intro bs s hnone
    have hfree : tagFree bs := fun p htag => hnone p (tagAt_length htag) htag
    exact exec_findMagic_of_eq (findMagic_eq_none_iff.mpr hfree) s

/-! ### STEP -/

/-- STEP delivers the scan's result and removes as many bytes as the scan says (R108). -/
theorem exec_step_of_scan {s : State} {r : StepResult} {k : Nat} (h : scan s.params.versionCheckAt s.buf = (r, k)) :
    exec .step s = .next { s with buf := s.buf.drop k, results := s.results ++ [.ok (.step r)] } := by
  rw [exec_eq_effect, effectOf, h]
  rfl

/-- A scan that stops leaves the buffer alone (R108). -/
theorem exec_step_of_stop {s : State} {r : StopReason} (h : scan s.params.versionCheckAt s.buf = (.stop r, 0)) :
    exec .step s = .next { s with results := s.results ++ [.ok (.step (.stop r))] } :=
  exec_step_of_scan h

/-- A Valid verdict counts ten bytes and the payload (R46, R84). -/
theorem tryDecode_valid_count {v : VersionCheckAt} {s : List Byte} {q n : Nat} {f : Frame}
    (h : tryDecode v s q = .valid f n) : 10 + f.payload.length = n := by
  obtain ⟨hwhole, -, -, rfl, rfl⟩ := tryDecode_valid_iff.mp h
  have hlen : (candidatePayload s q).length = (candidateLength s q).toNat := by
    rw [candidatePayload, slice_length]
    omega
  rw [candidateFrame, hlen]

/-- Settles O43: the verdict is the one TRY_DECODE gives at the first tag, and the scan takes its case of it. -/
theorem stepTakesTheFirstTag : Obligations.StepTakesTheFirstTag := by
  refine ⟨decode_encode .step, fun s => ⟨fun hfree => exec_step_of_stop (scan_of_tagFree hfree), fun p hp => ?_⟩⟩
  have hscan := scan_of_firstTag (v := s.params.versionCheckAt) hp
  refine ⟨_, exec_tryDecode_of_tagBegins (startOk_iff.mp (startOk_of_tagAt hp.1)) s, ?needMoreData, ?invalid, ?valid⟩
  case needMoreData =>
    intro hv
    rw [hv] at hscan
    exact exec_step_of_stop hscan
  case invalid =>
    intro hv
    rw [hv] at hscan
    exact exec_step_of_scan hscan
  case valid =>
    intro f n hv
    rw [hv] at hscan
    exact ⟨tryDecode_valid_count hv, exec_step_of_scan hscan⟩

/-! ### DRAIN -/

/-- DRAIN delivers the loop's frames and reason and leaves what the loop leaves (R111). -/
theorem exec_drain_of_eq {s : State} {d : Drained} (h : drainBuf s.params.versionCheckAt s.buf = d) :
    exec .drain s = .next { s with buf := d.rest, results := s.results ++ [.ok (.drain d.frames d.reason)] } := by
  subst h
  rfl

/-- Settles O44: the loop's equation, in each case of the scan that STEP delivers. -/
theorem drainIsTheLoopOfSteps : Obligations.DrainIsTheLoopOfSteps := by
  refine ⟨decode_encode .drain, fun s => ?_⟩
  rcases hscan : scan s.params.versionCheckAt s.buf with ⟨r, k⟩
  refine ⟨r, s.buf.drop k, exec_step_of_scan hscan, ?stop, fun _ => ⟨_, _, _, exec_drain_of_eq rfl, ?discard, ?emit⟩⟩
  case stop =>
    rintro reason rfl
    exact exec_drain_of_eq (drainBuf_of_stop hscan)
  case discard =>
    rintro rfl
    exact exec_drain_of_eq (drainBuf_of_discard hscan)
  case emit =>
    rintro f rfl
    exact exec_drain_of_eq (drainBuf_of_emit hscan)

end Sys2Proof.Machine
end

section
/-! PROOFS. The control operations (44_control.md R117, R118): what RESET and STATUS deliver, and what a byte fed to the full
buffer that STATUS reports comes to. -/

namespace Sys2Proof.Machine

theorem exec_reset (s : State) :
    exec .reset s = .next { s with buf := [], ovf := false, results := s.results ++ [.ok .none] } :=
  rfl

theorem exec_status (s : State) :
    exec .status s = .next { s with results := s.results ++ [.ok (.status s.buf.length s.ovf)] } :=
  rfl

/-- A full buffer keeps none of the bytes fed (R104, R105). -/
theorem keptBytes_of_full (len n : Nat) : keptBytes (.bounded len) len n = 0 := by
  rw [keptBytes, Nat.sub_self, Nat.min_zero]

/-- A FEED of at least one byte to a full buffer drops all of them (R104, R105). -/
theorem exec_feed_of_full {s : State} {bs : List Byte} (hfull : s.params.bufCap = .bounded s.buf.length)
    (hbs : 0 < bs.length) :
    exec (.feed bs) s = .next { s with ovf := true, results := s.results ++ [.error (.ovf bs.length)] } := by
  have hkept : keptBytes s.params.bufCap s.buf.length bs.length = 0 := by rw [hfull, keptBytes_of_full]
  simpa using exec_feed_of_kept_lt hkept hbs

/-- Settles O2: the next state of RESET has the reset values, so it agrees with a state that already holds them. -/
theorem resetEmptiesBufferAndClearsFlag : Obligations.ResetEmptiesBufferAndClearsFlag := by
  refine ⟨decode_encode .reset, exec_reset, ?_⟩
  rintro s t hbuf hovf ⟨⟩
  exact ⟨hbuf.symm, hovf.symm⟩

/-- Settles O3: after reset is the general case at `BUF = []` and `OVF = 0`, and the byte fed at the bound is a FEED to a full
buffer. -/
theorem statusReturnsLengthAndFlag : Obligations.StatusReturnsLengthAndFlag :=
  ⟨decode_encode .status, exec_status, fun p => exec_status (State.resetWith p),
    fun _ b hfull => exec_feed_of_full hfull (Nat.zero_lt_one : 0 < [b].length)⟩

end Sys2Proof.Machine
end

section
/-! PROOFS. The error codes (60_exceptions.md R123 to R131): which operation returns which code and for which cause, said once
as a table, and what an operation that returns one has written. -/

namespace Sys2Proof.Machine

/-! ### The table of R123 -/

/-- The table of R123, a case for each operation that a row names: on `s` the operation may return the error, where the row's
cause is met. -/
inductive ErrorRow (s : State) : Instr → ErrorInfo → Prop where
  | lenFrame (t : Byte) {p : List Byte} (hlong : 255 < p.length) : ErrorRow s (.encodeFrame t p) (.len p.length)
  | lenCommand (c : Byte) {a : List Byte} (hlong : 255 < a.length) : ErrorRow s (.encodeCommand c a) (.len a.length)
  | lenSsid {u : List Byte} (w : List Byte) (hlong : 255 < u.length) : ErrorRow s (.encodeWifi u w) (.len u.length)
  | lenPassword (u : List Byte) {w : List Byte} (hlong : 255 < w.length) : ErrorRow s (.encodeWifi u w) (.len w.length)
  | rpcShort {p : List Byte} (hshort : p.length < 2) : ErrorRow s (.decodeResult p) (.rpcShort p.length)
  | ovf {bs : List Byte} (hlost : feedKeeps bs s < bs.length) :
      ErrorRow s (.feed bs) (.ovf (bs.length - feedKeeps bs s))
  | payloadState {p : List Byte} (hlen : p.length ≠ 1) : ErrorRow s (.decodeState p) (.payload p.length)
  | payloadError {p : List Byte} (hlen : p.length ≠ 1) : ErrorRow s (.decodeError p) (.payload p.length)
  | noTxFrame (t : Byte) (p : List Byte) (htx : s.params.hasTxBuilder = false) : ErrorRow s (.encodeFrame t p) .noTx
  | noTxCommand (c : Byte) (a : List Byte) (htx : s.params.hasTxBuilder = false) : ErrorRow s (.encodeCommand c a) .noTx
  | noTxWifi (u w : List Byte) (htx : s.params.hasTxBuilder = false) : ErrorRow s (.encodeWifi u w) .noTx
  | start {bs : List Byte} {q : Nat} (htag : ¬ tagBegins bs q) : ErrorRow s (.tryDecode bs q) (.start q)

/-! ### The operations raise only errors of the table -/

theorem feedKeeps_eq_keptBytes (bs : List Byte) (s : State) :
    feedKeeps bs s = keptBytes s.params.bufCap s.buf.length bs.length :=
  rfl

/-- The two errors of the TX builder's operations (R124, R128). -/
theorem txResult_eq_error {p : Params} {ls : List (List Byte)} {bs : List Byte} {e : ErrorInfo}
    (h : txResult p ls bs = .error e) :
    (p.hasTxBuilder = false ∧ e = .noTx) ∨ ∃ l ∈ ls, 255 < l.length ∧ e = .len l.length := by
  unfold txResult at h
  split at h
  next =>
    split at h
    next l hfound =>
      cases h
      exact .inr ⟨l, List.mem_of_find?_eq_some hfound, by simpa using List.find?_some hfound, rfl⟩
    next => cases h
  next htx =>
    cases h
    exact .inl ⟨Bool.eq_false_iff.mpr htx, rfl⟩

theorem length_ne_one_of_ne_singleton {p : List Byte} (h : ∀ b, p ≠ [b]) : p.length ≠ 1 :=
  fun hlen => (List.length_eq_one_iff.mp hlen).elim h

/-- An operation that returns an error returns one whose row names it, for the row's cause (R123). -/
theorem errorRow_of_effectOf_result {i : Instr} {s : State} {e : ErrorInfo}
    (h : (effectOf i s.params s.buf s.ovf).result = .error e) : ErrorRow s i e := by
  cases i <;> simp only [effectOf] at h
  case feed bs =>
    rw [← feedKeeps_eq_keptBytes] at h
    split at h
    next => cases h
    next hlost =>
      cases h
      exact .ovf (by omega)
  case tryDecode bs q =>
    split at h
    next => cases h
    next hstart =>
      cases h
      exact .start (mt startOk_iff.mpr hstart)
  case decodeResult p =>
    split at h
    next hshort =>
      cases h
      exact .rpcShort hshort
    next => cases h
  case decodeState p =>
    split at h
    next => cases h
    next hne =>
      cases h
      exact .payloadState (length_ne_one_of_ne_singleton hne)
  case decodeError p =>
    split at h
    next => cases h
    next hne =>
      cases h
      exact .payloadError (length_ne_one_of_ne_singleton hne)
  case encodeFrame t p =>
    obtain ⟨htx, rfl⟩ | ⟨l, hl, hlong, rfl⟩ := txResult_eq_error h
    · exact .noTxFrame t p htx
    · obtain rfl := List.mem_singleton.mp hl
      exact .lenFrame t hlong
  case encodeCommand c a =>
    obtain ⟨htx, rfl⟩ | ⟨l, hl, hlong, rfl⟩ := txResult_eq_error h
    · exact .noTxCommand c a htx
    · obtain rfl := List.mem_singleton.mp hl
      exact .lenCommand c hlong
  case encodeWifi u w =>
    obtain ⟨htx, rfl⟩ | ⟨l, hl, hlong, rfl⟩ := txResult_eq_error h
    · exact .noTxWifi u w htx
    · obtain rfl | rfl := List.mem_pair.mp hl
      · exact .lenSsid w hlong
      · exact .lenPassword u hlong
  all_goals cases h

/-! ### What an operation that returns an error has written -/

/-- E_OVF is FEED's alone (R126). -/
theorem errorRow_ovf_iff {s : State} {i : Instr} {d : Nat} :
    ErrorRow s i (.ovf d) ↔ ∃ bs, i = .feed bs ∧ feedKeeps bs s < bs.length ∧ d = bs.length - feedKeeps bs s := by
  constructor
  · rintro ⟨⟩
    exact ⟨_, rfl, ‹_›, rfl⟩
  · rintro ⟨bs, rfl, hlost, rfl⟩
    exact .ovf hlost

/-- Every operation but FEED that can return an error writes neither BUF nor OVF (R131). -/
theorem effectOf_unwritten_of_errorRow {s : State} {i : Instr} {e : ErrorInfo} (h : ErrorRow s i e)
    (hovf : ∀ d, e ≠ .ovf d) :
    (effectOf i s.params s.buf s.ovf).buf = s.buf ∧ (effectOf i s.params s.buf s.ovf).ovf = s.ovf := by
  cases h with
  | ovf => exact absurd rfl (hovf _)
  | _ => exact ⟨rfl, rfl⟩

/-- Settles O12: the table says which operation raised the error. -/
theorem errorsArePrecise : Obligations.ErrorsArePrecise := by
  intro i s t e hexec hresults
  obtain rfl := exec_eq_next_iff.mp hexec
  have hresult : (effectOf i s.params s.buf s.ovf).result = .error e := by simpa using hresults
  have hrow := errorRow_of_effectOf_result hresult
  refine ⟨rfl, rfl, fun hovf => ?precise, fun d hd => ?overflow⟩
  case precise =>
    obtain ⟨hbuf, hflag⟩ := effectOf_unwritten_of_errorRow hrow hovf
    rw [Effect.apply, hbuf, hflag, hresult]
  case overflow =>
    subst hd
    obtain ⟨bs, rfl, hlost, rfl⟩ := errorRow_ovf_iff.mp hrow
    exact ⟨bs, rfl, rfl, exec_eq_next_iff.mp (exec_feed_of_kept_lt rfl hlost)⟩

/-! ### The codes -/

/-- A step whose command has an unassigned op code returns E_ILLEGAL and writes no state (R67, R130). -/
theorem step_of_not_opcodeAssigned {s : State} {c : Command} {rest : List Command} (hpending : s.pending = c :: rest)
    (h : c.opcodeAssigned = false) :
    step s = .next { s with pending := rest, results := s.results ++ [.error (.illegal c.opcode)] } := by
  rw [opcodeAssigned_eq, Option.isSome_eq_false_iff, Option.isNone_iff_eq_none] at h
  rw [step_of_pending_cons hpending, issue_of_illegalOpcode (decode_of_decodeOpcode_eq_none h)]
  rfl

/-- Settles O15: the operation's one result is OK or an error of the table, taken case by case. -/
theorem everyOperationReturnsACodeOfItsRow : Obligations.EveryOperationReturnsACodeOfItsRow := by
  refine ⟨fun _ => rfl, fun _ => rfl, fun _ => rfl, fun _ => rfl, fun _ => rfl, rfl, fun _ => rfl, fun _ => rfl,
    fun _ _ _ => step_of_not_opcodeAssigned, fun i s t hexec => ?_⟩
  obtain rfl := exec_eq_next_iff.mp hexec
  refine ⟨_, apply_results _ s, ?_⟩
  cases hresult : (effectOf i s.params s.buf s.ovf).result with
  | ok v => exact .inl ⟨v, rfl⟩
  | error e =>
    right
    cases errorRow_of_effectOf_result hresult with
    | lenFrame t hlong => exact .inl ⟨_, hlong, rfl, .inl ⟨t, rfl⟩⟩
    | lenCommand c hlong => exact .inl ⟨_, hlong, rfl, .inr (.inl ⟨c, rfl⟩)⟩
    | lenSsid w hlong => exact .inl ⟨_, hlong, rfl, .inr (.inr ⟨w, .inl rfl⟩)⟩
    | lenPassword u hlong => exact .inl ⟨_, hlong, rfl, .inr (.inr ⟨u, .inr rfl⟩)⟩
    | rpcShort hshort => exact .inr (.inl ⟨_, rfl, hshort, rfl⟩)
    | ovf hlost => exact .inr (.inr (.inl ⟨_, rfl, hlost, rfl⟩))
    | payloadState hlen => exact .inr (.inr (.inr (.inl ⟨_, .inl rfl, hlen, rfl⟩)))
    | payloadError hlen => exact .inr (.inr (.inr (.inl ⟨_, .inr rfl, hlen, rfl⟩)))
    | noTxFrame t p htx => exact .inr (.inr (.inr (.inr (.inl ⟨htx, rfl, .inl ⟨t, p, rfl⟩⟩))))
    | noTxCommand c a htx => exact .inr (.inr (.inr (.inr (.inl ⟨htx, rfl, .inr (.inl ⟨c, a, rfl⟩)⟩))))
    | noTxWifi u w htx => exact .inr (.inr (.inr (.inr (.inl ⟨htx, rfl, .inr (.inr ⟨u, w, rfl⟩)⟩))))
    | start htag => exact .inr (.inr (.inr (.inr (.inr ⟨_, _, rfl, htag, rfl⟩))))

/-- Settles O24: each of the three operations asks for the TX builder before it looks at its operands. -/
theorem absentTxBuilderReturnsENotx : Obligations.AbsentTxBuilderReturnsENotx := by
  intro i s htx hop
  refine ⟨?_, rfl⟩
  obtain ⟨t, p, rfl⟩ | ⟨c, a, rfl⟩ | ⟨u, w, rfl⟩ := hop
  · rw [exec_encodeFrame]
    exact needTxBuilder_of_absent htx _
  · rw [exec_encodeCommand]
    exact needTxBuilder_of_absent htx _
  · rw [exec_encodeWifi]
    exact needTxBuilder_of_absent htx _

end Sys2Proof.Machine
end

section
/-! PROOFS. Reset (70_reset_and_hazards.md R142): what the power-on state of an instance holds, and how RESET comes to it. -/

namespace Sys2Proof.Machine

@[simp] theorem resetWith_buf (p : Params) : (State.resetWith p).buf = [] := rfl
@[simp] theorem resetWith_ovf (p : Params) : (State.resetWith p).ovf = false := rfl
@[simp] theorem resetWith_params (p : Params) : (State.resetWith p).params = p := rfl

/-- RESET leaves BUF, OVF and the parameters as power-on does; it takes nothing off the port and answers as any operation
does. -/
theorem exec_reset_eq_resetWith (s : State) :
    exec .reset s =
      .next { State.resetWith s.params with pending := s.pending, results := s.results ++ [.ok .none] } :=
  exec_reset s

/-- Settles O1: the power-on state by its fields, and the next state of RESET as the power-on state but for the port. -/
theorem resetStateOfEveryInstance : Obligations.ResetStateOfEveryInstance := by
  refine fun p => ⟨resetWith_buf p, resetWith_ovf p, resetWith_params p, ?_⟩
  rintro s rfl
  exact ⟨_, exec_reset_eq_resetWith s, rfl, rfl, resetWith_params s.params⟩

end Sys2Proof.Machine
end

section
/-! PROOFS. The run of commands (30_encoding.md R65 to R68, 20_memory.md R39, 70_reset_and_hazards.md R153): the decoder as the
inverse of the encoder, everything a step can do, and the state a list of operations ends in. -/

namespace Sys2Proof

/-! ### The decoder and the encoder are inverse -/

/-- Decoding is undone by encoding: a command decodes to an operation exactly where it is that operation's command. -/
theorem decode_eq_ok_iff {c : Command} {i : Instr} : decode c = .ok i ↔ encode i = c := by
  constructor
  · intro h
    unfold decode at h
    split at h
    next => cases h
    next op hop =>
      split at h
      next => cases h
      next hi =>
        cases h
        obtain ⟨rfl, hoperands⟩ := decodeOperands_eq hi
        rw [encode, decodeOpcode_code hop, hoperands]
  · rintro rfl
    exact decode_encode i

/-- The decoder rejects the operands exactly where the op code is assigned and they are not those its row lists (R66). -/
theorem decode_eq_operandsNotAsListed_iff {c : Command} {b : Byte} :
    decode c = .error (.operandsNotAsListed b) ↔
      c.opcodeAssigned = true ∧ c.operandsAsListed = false ∧ b = c.opcode := by
  cases hop : decodeOpcode c.opcode with
  | none => simp [opcodeAssigned_eq, hop, decode_of_decodeOpcode_eq_none hop]
  | some op =>
    cases hi : decodeOperands op c.operands <;>
      simp [opcodeAssigned_eq, operandsAsListed_eq c hop, decode, hop, hi, eq_comm]

/-- Settles O7: both halves say that decoding is undone by encoding. -/
theorem decodeAndEncodeAgree : Obligations.DecodeAndEncodeAgree :=
  ⟨decode_encode, fun _ _ => decode_eq_ok_iff.mp⟩

end Sys2Proof

namespace Sys2Proof.Machine

/-! ### Everything a step can do -/

theorem issue_of_decode_eq_ok {c : Command} {i : Instr} (h : decode c = .ok i) (s : State) : issue c s = exec i s := by
  rw [issue, h]

theorem issue_of_operandsNotAsListed {c : Command} {b : Byte} (h : decode c = .error (.operandsNotAsListed b))
    (s : State) : issue c s = .fault (.operandsNotAsListed b) := by
  rw [issue, h]

theorem step_of_pending_nil {s : State} (h : s.pending = []) : step s = .next s := by
  rw [step, serveNext, takeCommand_nil h]

/-- Everything a step can do: nothing where nothing is issued; else it takes the oldest command and runs its operation,
returns E_ILLEGAL, or stops on its operands. -/
theorem step_cases (s : State) :
    (s.pending = [] ∧ step s = .next s) ∨
    ∃ c rest, s.pending = c :: rest ∧
      ((∃ i, decode c = .ok i ∧
          step s = .next ((effectOf i s.params s.buf s.ovf).apply { s with pending := rest })) ∨
       (∃ b, decode c = .error (.illegalOpcode b) ∧
          step s = .next (deliver (.error (.illegal b)) { s with pending := rest })) ∨
       ∃ b, decode c = .error (.operandsNotAsListed b) ∧ step s = .fault (.operandsNotAsListed b)) := by
  cases hpending : s.pending with
  | nil => exact .inl ⟨rfl, step_of_pending_nil hpending⟩
  | cons c rest =>
    refine .inr ⟨c, rest, rfl, ?_⟩
    rw [step_of_pending_cons hpending]
    rcases hdecode : decode c with (b | b) | i
    · exact .inr (.inl ⟨b, rfl, issue_of_illegalOpcode hdecode _⟩)
    · exact .inr (.inr ⟨b, rfl, issue_of_operandsNotAsListed hdecode _⟩)
    · exact .inl ⟨i, rfl, (issue_of_decode_eq_ok hdecode _).trans (exec_eq_effect i _)⟩

/-- A step that answers a next state has idled, or done what one operation does, or returned one error. -/
theorem step_next_cases {s t : State} (h : step s = .next t) :
    t = s ∨ ∃ rest, (∃ i, t = (effectOf i s.params s.buf s.ovf).apply { s with pending := rest }) ∨
      ∃ e, t = deliver (.error e) { s with pending := rest } := by
  obtain ⟨-, e⟩ | ⟨c, rest, -, ⟨i, -, e⟩ | ⟨b, -, e⟩ | ⟨b, -, e⟩⟩ := step_cases s <;> rw [e] at h <;> cases h
  · exact .inl rfl
  · exact .inr ⟨rest, .inl ⟨i, rfl⟩⟩
  · exact .inr ⟨rest, .inr ⟨_, rfl⟩⟩

/-- Settles O4: the queue's two cases. -/
theorem stepRunsTheDecodedOperation : Obligations.StepRunsTheDecodedOperation := by
  refine ⟨fun s c rest i hpending hdecode => ?_, fun _ => step_of_pending_nil⟩
  rw [step_of_pending_cons hpending, issue_of_decode_eq_ok hdecode]

/-- A step stops exactly where the decoder rejects the operands of the command to be taken. -/
theorem step_eq_fault_iff {s : State} {f : Fault} :
    step s = .fault f ↔ ∃ c rest b, s.pending = c :: rest ∧ decode c = .error (.operandsNotAsListed b) ∧
      f = .operandsNotAsListed b := by
  obtain ⟨hpending, e⟩ | ⟨c, rest, hpending, ⟨i, hdecode, e⟩ | ⟨b, hdecode, e⟩ | ⟨b, hdecode, e⟩⟩ := step_cases s
  · simp [e, hpending]
  all_goals simp [e, hpending, hdecode, eq_comm]

/-- Settles O8: no case of a step refuses, and the one that stops is the decoder's rejection of the operands. -/
theorem stepStopsOnlyOnOperandsNotListed : Obligations.StepStopsOnlyOnOperandsNotListed := by
  refine fun s => ⟨fun r h => ?_, fun f => ?_⟩
  · obtain ⟨-, e⟩ | ⟨c, rest, -, ⟨i, -, e⟩ | ⟨b, -, e⟩ | ⟨b, -, e⟩⟩ := step_cases s <;> rw [e] at h <;> cases h
  · simp [step_eq_fault_iff, decode_eq_operandsNotAsListed_iff, and_assoc]

/-- Settles O14: no case of a step writes the parameters. -/
theorem noStepChangesAParameter : Obligations.NoStepChangesAParameter := by
  intro s t h
  obtain rfl | ⟨rest, ⟨i, rfl⟩ | ⟨e, rfl⟩⟩ := step_next_cases h <;> rfl

/-! ### What an operation's effect depends on -/

/-- Settles O9: the operation's effect, which is the same under every CMD_MAP. -/
theorem everyOperationCompletesWithOneResult : Obligations.EveryOperationCompletesWithOneResult := by
  intro i s
  refine ⟨(effectOf i s.params s.buf s.ovf).buf, (effectOf i s.params s.buf s.ovf).ovf,
    (effectOf i s.params s.buf s.ovf).result, fun m cs rs => ?_⟩
  rw [exec_eq_effect, effectOf_cmdMap]
  rfl

/-- A pure operation has one result whatever BUF and OVF, and hands both on (R18, R34). -/
theorem effectOf_of_isPureOperation {i : Instr} (h : isPureOperation i = true) (p : Params) :
    ∃ r, ∀ buf ovf, effectOf i p buf ovf = { buf := buf, ovf := ovf, result := r } := by
  cases i with
  | feed | step | drain | reset | status => cases h
  | _ => exact ⟨_, fun _ _ => rfl⟩

/-- Settles O11: the effect of a pure operation hands BUF and OVF on. -/
theorem pureOperationsReadOnlyTheirOperands : Obligations.PureOperationsReadOnlyTheirOperands := by
  intro i s hpure
  obtain ⟨r, heffect⟩ := effectOf_of_isPureOperation hpure s.params
  refine ⟨r, fun buf ovf => ?_⟩
  rw [exec_eq_effect, heffect]
  rfl

/-! ### The state that a list of operations ends in -/

/-- The state after operations run one after the other (R39). -/
def afterOps : List Instr → State → State
  | [], s => s
  | i :: is, s => afterOps is ((effectOf i s.params s.buf s.ovf).apply s)

/-- A run of operations never stops: it ends in the state after them. -/
theorem runOps_eq_afterOps (is : List Instr) (s : State) : runOps is s = .next (afterOps is s) := by
  induction is generalizing s with
  | nil => rfl
  | cons i is ih => rw [runOps_cons, ih, afterOps]

theorem afterOps_append (is js : List Instr) (s : State) : afterOps (is ++ js) s = afterOps js (afterOps is s) := by
  induction is generalizing s with
  | nil => rfl
  | cons i is ih => rw [List.cons_append, afterOps, ih, afterOps]

@[simp] theorem afterOps_pending (is : List Instr) (s : State) : (afterOps is s).pending = s.pending := by
  induction is generalizing s with
  | nil => rfl
  | cons i is ih => rw [afterOps, ih, apply_pending]

theorem afterOps_results (is : List Instr) (s : State) :
    ∃ rs, rs.length = is.length ∧ (afterOps is s).results = s.results ++ rs := by
  induction is generalizing s with
  | nil => exact ⟨[], rfl, (List.append_nil _).symm⟩
  | cons i is ih =>
    obtain ⟨rs, hlen, e⟩ := ih ((effectOf i s.params s.buf s.ovf).apply s)
    exact ⟨_ :: rs, congrArg (· + 1) hlen, by rw [afterOps, e, apply_results, List.append_assoc, List.singleton_append]⟩

theorem set_pending_eq_self {s : State} {cs : List Command} (h : s.pending = cs) : { s with pending := cs } = s := by
  subst h
  rfl

/-- Where the commands of operations stand issued, as many steps end in the state after them, with no command left (R39). -/
theorem stepTimes_of_pending {is : List Instr} {s : State} (h : s.pending = is.map encode) :
    stepTimes is.length s = .next (afterOps is { s with pending := [] }) := by
  induction is generalizing s with
  | nil => exact congrArg _ (set_pending_eq_self h).symm
  | cons i is ih =>
    rw [List.length_cons, stepTimes, step_of_pending_cons h, issue_of_decode_eq_ok (decode_encode i), exec_eq_effect]
    exact ih rfl

/-- Issuing the commands of operations to a state with nothing issued, and serving them, ends in the state after them. -/
theorem stepTimes_of_issued (js : List Instr) {t : State} (h : t.pending = []) :
    stepTimes js.length { t with pending := js.map encode } = .next (afterOps js t) := by
  rw [stepTimes_of_pending rfl, set_pending_eq_self h]

theorem stepTimes_add (m n : Nat) (s : State) : stepTimes (m + n) s = onNext (stepTimes m s) (stepTimes n) := by
  induction m generalizing s with
  | zero => rw [Nat.zero_add]; rfl
  | succ m ih =>
    rw [Nat.succ_add, stepTimes, stepTimes]
    cases step s with
    | next t => exact ih t
    | fault f => rfl
    | refused r => rfl

/-- Idle steps change nothing (R141). -/
theorem stepTimes_of_pending_nil {s : State} (h : s.pending = []) (k : Nat) : stepTimes k s = .next s := by
  induction k with
  | zero => rfl
  | succ k ih => rw [stepTimes, step_of_pending_nil h, onNext, ih]

/-- Settles O16: the steps and the run of the operations end in the same state. -/
theorem commandsRunInIssueOrder : Obligations.CommandsRunInIssueOrder := by
  intro is s hpending
  rw [stepTimes_of_pending hpending, runOps_eq_afterOps]
  obtain ⟨rs, hlen, hresults⟩ := afterOps_results is { s with pending := [] }
  exact ⟨rfl, _, rfl, afterOps_pending is _, by rw [hresults, List.length_append, hlen], rs, hresults⟩

/-- Settles O56: the state after the first operations has nothing issued, so idle steps keep it, and the further operations
go on from it as the run of all of them does. -/
theorem everyOperationEndsAndIdleTimeChangesNothing : Obligations.EveryOperationEndsAndIdleTimeChangesNothing := by
  refine ⟨exec_ends, fun is js s hpending => ?_⟩
  have hidle : (afterOps is { s with pending := [] }).pending = [] := afterOps_pending is _
  refine ⟨_, afterOps (is ++ js) { s with pending := [] }, fun k => ⟨?wait, hidle, ?further, ?atOnce⟩⟩
  case wait =>
    rw [stepTimes_add, stepTimes_of_pending hpending]
    exact stepTimes_of_pending_nil hidle k
  case further =>
    rw [afterOps_append]
    exact stepTimes_of_issued js hidle
  case atOnce =>
    rw [← List.length_append]
    exact stepTimes_of_issued (is ++ js) (t := { s with pending := [] }) rfl

end Sys2Proof.Machine
end

section
/-! PROOFS. The checksum unit's laws and the frames that TRY_DECODE answers Valid to (40_checksum.md, 41_frame_codec.md R79 to
R88): a frame is Valid exactly where it stands whole and is well formed, so the valid frames are the encoded ones. -/

namespace Sys2Proof.Machine

/-! ### The laws of the sum byte -/

theorem sum8_append (x y : List Byte) : sum8 (x ++ y) = sum8 x + sum8 y := by
  rw [sum8, byteSum_append, BitVec.ofNat_add]
  rfl

theorem sum8_cons (b : Byte) (x : List Byte) : sum8 (b :: x) = b + sum8 x := by
  rw [sum8, byteSum_cons, BitVec.ofNat_add, BitVec.ofNat_toNat, BitVec.setWidth_eq]
  rfl

theorem sum8_replicate_zero (n : Nat) : sum8 (List.replicate n 0x00#8) = 0x00#8 := by
  simp [sum8, byteSum]

theorem sum8_eq_of_perm {x y : List Byte} (h : x.Perm y) : sum8 x = sum8 y := by
  rw [sum8, byteSum, (h.map BitVec.toNat).sum_eq]
  rfl

/-- Where all other bytes agree, the sum bytes tell two bytes apart. -/
theorem sum8_append_cons_inj {x y : List Byte} {a b : Byte} : sum8 (x ++ a :: y) = sum8 (x ++ b :: y) ↔ a = b := by
  simp only [sum8_append, sum8_cons, BitVec.add_right_inj, BitVec.add_left_inj]

/-- Replacing one byte by another changes the sum byte. -/
theorem sum8_set_ne {x : List Byte} {i : Nat} {b : Byte} (hi : i < x.length) (hb : x[i]? ≠ some b) :
    sum8 (x.set i b) ≠ sum8 x := by
  conv_rhs => rw [← List.take_append_drop i x, List.drop_eq_getElem_cons hi]
  rw [List.set_eq_take_append_cons_drop, if_pos hi, ne_eq, sum8_append_cons_inj]
  rintro rfl
  exact hb (List.getElem?_eq_getElem hi)

/-- CHECKSUM answers with exactly the sum byte (R73). -/
theorem exec_checksum_iff {bs : List Byte} {b : Byte} {s : State} :
    exec (.checksum bs) s = .next { s with results := s.results ++ [.ok (.byte b)] } ↔ sum8 bs = b := by
  rw [exec_checksum]
  exact next_deliver_inj.trans (by simp)

/-- Settles O21: the sum bytes tell the two bytes apart. -/
theorem changingOneByteChangesTheChecksum : Obligations.ChangingOneByteChangesTheChecksum := by
  intro x y a b s u w hne hu hw
  rw [exec_checksum_iff] at hu hw
  rw [← hu, ← hw, ne_eq, sum8_append_cons_inj]
  exact hne

/-- Settles O22: the sum byte of a permutation, of 00 bytes and of a concatenation. -/
theorem checksumIgnoresOrderAndZeros : Obligations.ChecksumIgnoresOrderAndZeros := by
  refine ⟨fun x y s hperm => ?order, fun x y n s => ?zeros, fun x y s u w hu hw => ?concatenation⟩
  case order => rw [exec_checksum, exec_checksum, sum8_eq_of_perm hperm]
  case zeros => simp [exec_checksum, sum8_append, sum8_replicate_zero]
  case concatenation =>
    rw [exec_checksum_iff] at hu hw ⊢
    rw [sum8_append, hu, hw]

/-! ### The bytes of a candidate -/

theorem drop_eq_byteAt_cons {s : List Byte} {i : Nat} (h : i < s.length) : s.drop i = byteAt s i :: s.drop (i + 1) := by
  rw [List.drop_eq_getElem_cons h, byteAt_of_lt h]

/-- From the version byte on stand the version, type and length bytes of a candidate, and then what follows them (R46, R77). -/
theorem drop_eq_candidate_prefix {s : List Byte} {q : Nat} (h : 9 ≤ s.length - q) :
    s.drop (q + 6) = candidateVersion s q :: candidateType s q :: candidateLength s q :: s.drop (q + 9) := by
  rw [drop_eq_byteAt_cons (by omega), drop_eq_byteAt_cons (by omega), drop_eq_byteAt_cons (by omega)]
  rfl

/-- The checksum of a candidate covers its version, type, length and payload (R55, R82). -/
theorem candidateCovered_eq_cons {s : List Byte} {q : Nat} (h : 9 ≤ s.length - q) :
    candidateCovered s q =
      candidateVersion s q :: candidateType s q :: candidateLength s q :: candidatePayload s q := by
  rw [candidateCovered_eq_take_drop, drop_eq_candidate_prefix h, candidatePayload_eq_take_drop, Nat.add_comm]
  rfl

/-- A whole candidate with its tag is the wire form of its frame record, and then what follows it (R24, R46). -/
theorem drop_eq_candidateFrame_wire_append {s : List Byte} {q : Nat} (htag : tagAt s q)
    (hwhole : 10 + (candidateLength s q).toNat ≤ s.length - q) :
    s.drop q = (candidateFrame s q).wire ++ s.drop (q + (10 + (candidateLength s q).toNat)) := by
  have hmagic : s.drop q = magic ++ s.drop (q + 6) := by
    rw [← tagAt_iff_magic.mp htag, ← List.drop_drop, List.take_append_drop]
  have hpayload : s.drop (q + 9) = candidatePayload s q ++ s.drop (q + 9 + (candidateLength s q).toNat) := by
    rw [candidatePayload_eq_take_drop, ← List.drop_drop (i := BitVec.toNat _), List.take_append_drop]
  have hend : q + (10 + (candidateLength s q).toNat) = q + 9 + (candidateLength s q).toNat + 1 := by omega
  rw [hend, hmagic, drop_eq_candidate_prefix (by omega), hpayload, drop_eq_byteAt_cons (i := q + 9 + _) (by omega)]
  simp [Frame.wire, candidateFrame, candidateChecksum]

/-! ### The valid frames are the well-formed ones -/

/-- The three tests of a whole candidate are the invariants of its frame record (R24, R81, R82). -/
theorem candidateFrame_wf_iff {s : List Byte} {q : Nat} (hwhole : 10 + (candidateLength s q).toNat ≤ s.length - q) :
    (candidateFrame s q).wf ↔
      candidateVersion s q = wireVersion ∧ sum8 (candidateCovered s q) = candidateChecksum s q := by
  have hlen : (candidatePayload s q).length = (candidateLength s q).toNat := by
    rw [candidatePayload, slice_length]
    omega
  rw [candidateCovered_eq_cons (by omega), sum8_eq_iff, eq_comm (b := (candidateChecksum s q).toNat)]
  simp only [Frame.wf, candidateFrame, hlen, true_and]
  rfl

/-- The verdict is Valid exactly where a whole candidate stands whose frame record is well formed (R79, R84). -/
theorem tryDecode_valid_iff_wf {v : VersionCheckAt} {s : List Byte} {q : Nat} {f : Frame} {n : Nat} :
    tryDecode v s q = .valid f n ↔
      n ≤ s.length - q ∧ n = 10 + (candidateLength s q).toNat ∧ f = candidateFrame s q ∧ f.wf := by
  rw [tryDecode_valid_iff]
  constructor
  · rintro ⟨hwhole, hver, hsum, rfl, rfl⟩
    exact ⟨hwhole, rfl, rfl, (candidateFrame_wf_iff hwhole).mpr ⟨hver, hsum⟩⟩
  · rintro ⟨hwhole, rfl, rfl, hwf⟩
    obtain ⟨hver, hsum⟩ := (candidateFrame_wf_iff hwhole).mp hwf
    exact ⟨hwhole, hver, hsum, rfl, rfl⟩

/-! ### The built frames -/

theorem builtRecord_wire (t : Byte) (p : List Byte) : (builtRecord t p).wire = builtFrame t p := by
  simp [Frame.wire, builtRecord, builtFrame, magic]

/-- The record of a built frame is well formed where its length fits the length byte (R24, R86). -/
theorem builtRecord_wf (t : Byte) {p : List Byte} (h : p.length ≤ 255) : (builtRecord t p).wf := by
  have hlen : (BitVec.ofNat 8 p.length).toNat = p.length := lengthByte_toNat h
  refine ⟨rfl, hlen.symm, ?_⟩
  simp [builtRecord, Nat.add_assoc, Nat.mod_eq_of_lt (Nat.lt_succ_of_le h)]

/-- A well-formed record is that of the frame built of its type and payload (R24). -/
theorem builtRecord_of_wf {f : Frame} (h : f.wf) : builtRecord f.ftype f.payload = f := by
  obtain ⟨version, ftype, length, payload, checksum⟩ := f
  obtain ⟨hver, hlen, hsum⟩ := h
  simp only at hver hlen hsum
  subst hver
  have hlength : BitVec.ofNat 8 payload.length = length := by rw [hlen, BitVec.ofNat_toNat, BitVec.setWidth_eq]
  have hchecksum : BitVec.ofNat 8 (1 + ftype.toNat + payload.length + (payload.map BitVec.toNat).sum) = checksum := by
    rw [← BitVec.toNat_inj, hsum, hlen]
    simp [Nat.add_assoc]
  rw [builtRecord, hlength, hchecksum]

theorem builtFrame_of_wf {f : Frame} (h : f.wf) : builtFrame f.ftype f.payload = f.wire := by
  rw [← builtRecord_wire, builtRecord_of_wf h]

theorem tagAt_builtFrame (t : Byte) (p : List Byte) : tagAt (builtFrame t p) 0 := rfl

/-- The candidate that a built frame is has its record. -/
theorem candidateFrame_builtFrame (t : Byte) {p : List Byte} (h : p.length ≤ 255) :
    candidateFrame (builtFrame t p) 0 = builtRecord t p := by
  have hlen : (BitVec.ofNat 8 p.length).toNat = p.length := lengthByte_toNat h
  simp [candidateFrame, candidateVersion, candidateType, candidateLength, candidatePayload, candidateChecksum, builtFrame,
    builtRecord, byteAt, slice, hlen, Nat.add_comm 9]

/-- A built frame at an offset is Valid, with its record and all of its bytes, whatever follows it (R85, R87). -/
theorem tryDecode_builtFrame (v : VersionCheckAt) (x : List Byte) (t : Byte) {p : List Byte} (h : p.length ≤ 255)
    (y : List Byte) :
    tryDecode v (x ++ builtFrame t p ++ y) x.length = .valid (builtRecord t p) (builtFrame t p).length := by
  have hframe := candidateFrame_builtFrame t h
  have hlen : (candidateLength (builtFrame t p) 0).toNat = p.length := by
    have hbyte : candidateLength (builtFrame t p) 0 = lengthByte p := congrArg Frame.length hframe
    rw [hbyte, lengthByte_toNat h]
  have hvalid : tryDecode v (builtFrame t p) 0 = .valid (builtRecord t p) (builtFrame t p).length :=
    tryDecode_valid_iff_wf.mpr ⟨Nat.le_refl _, by rw [builtFrame_length, hlen], hframe.symm, builtRecord_wf t h⟩
  have hdrop := tryDecode_drop v (x ++ builtFrame t p ++ y) x.length 0
  rw [List.append_assoc, List.drop_left, tryDecode_append y (by rw [hvalid]; exact nofun), hvalid] at hdrop
  rw [List.append_assoc]
  exact hdrop.symm

/-- A Valid verdict is of the built frame of its record, which stands at the tag (R84, R88). -/
theorem drop_eq_builtFrame_append_of_valid {v : VersionCheckAt} {s : List Byte} {q n : Nat} {f : Frame}
    (htag : tagAt s q) (h : tryDecode v s q = .valid f n) :
    s.drop q = builtFrame f.ftype f.payload ++ s.drop (q + n) := by
  obtain ⟨hwhole, rfl, rfl, hwf⟩ := tryDecode_valid_iff_wf.mp h
  rw [builtFrame_of_wf hwf]
  exact drop_eq_candidateFrame_wire_append htag hwhole

/-- The length byte of a well-formed record bounds its payload. -/
theorem payload_length_le_of_wf {f : Frame} (h : f.wf) : f.payload.length ≤ 255 := by
  obtain ⟨-, hlen, -⟩ := h
  rw [hlen]
  exact Nat.le_of_lt_succ f.length.isLt

/-- A sequence is Valid and consumed whole exactly where it is the built frame of the record, whose payload fits (R87, R88). -/
theorem tryDecode_whole_iff {v : VersionCheckAt} {f : List Byte} {r : Frame} (htag : tagAt f 0) :
    tryDecode v f 0 = .valid r f.length ↔
      ∃ t p, p.length ≤ 255 ∧ r = builtRecord t p ∧ f = builtFrame t p := by
  constructor
  · intro h
    obtain ⟨-, -, -, hwf⟩ := tryDecode_valid_iff_wf.mp h
    have hbytes := drop_eq_builtFrame_append_of_valid htag h
    rw [Nat.zero_add, List.drop_length, List.append_nil] at hbytes
    exact ⟨r.ftype, r.payload, payload_length_le_of_wf hwf, (builtRecord_of_wf hwf).symm, hbytes⟩
  · rintro ⟨t, p, hp, rfl, rfl⟩
    simpa using tryDecode_builtFrame v [] t hp []

/-! ### What TRY_DECODE and ENCODE_FRAME deliver -/

/-- TRY_DECODE answers with a verdict exactly where its precondition holds and the verdict is that one (R78, R79). -/
theorem exec_tryDecode_iff {bs : List Byte} {q : Nat} {w : Verdict} {s : State} :
    exec (.tryDecode bs q) s = .next { s with results := s.results ++ [.ok (.verdict w)] } ↔
      tagBegins bs q ∧ tryDecode s.params.versionCheckAt bs q = w := by
  by_cases htag : tagBegins bs q
  · rw [and_iff_right htag]
    exact exec_tryDecode_verdict_iff htag
  · rw [exec_tryDecode_of_not_tagBegins htag]
    refine ⟨fun h => ?_, fun h => absurd h.1 htag⟩
    cases next_deliver_inj.mp h

/-- ENCODE_FRAME answers with bytes exactly where it may build and they are those of the built frame (R86). -/
theorem exec_encodeFrame_iff {t : Byte} {p f : List Byte} {s : State} :
    exec (.encodeFrame t p) s = .next { s with results := s.results ++ [.ok (.bytes f)] } ↔
      s.params.hasTxBuilder = true ∧ p.length ≤ 255 ∧ f = builtFrame t p := by
  rw [exec_encodeFrame]
  obtain ⟨htx, e⟩ | ⟨htx, e⟩ := needTxBuilder_eq s (needFits p s (ret (.bytes (builtFrame t p)) s)) <;> rw [e]
  · obtain ⟨hp, e⟩ | ⟨hp, e⟩ := needFits_eq p s (ret (.bytes (builtFrame t p)) s) <;> rw [e]
    · exact next_deliver_inj.trans (by simp [htx, hp, eq_comm])
    · exact next_deliver_inj.trans (by simp [hp])
  · exact next_deliver_inj.trans (by simp [htx])

/-- A sequence of at least 6 bytes meets the precondition at 0 only where a whole tag stands there. -/
theorem tagAt_zero_of_tagBegins {s : List Byte} (hlen : 6 ≤ s.length) (h : tagBegins s 0) : tagAt s 0 := by
  have hstart := startOk_iff.mpr h
  rw [startOk, Bool.and_eq_true, beq_iff_eq, Nat.zero_add, Nat.sub_zero, Nat.min_eq_left hlen, slice] at hstart
  exact hstart.2

theorem tagBegins_of_tagAt {s : List Byte} {q : Nat} (h : tagAt s q) : tagBegins s q :=
  startOk_iff.mp (startOk_of_tagAt h)

/-- Settles O28: the encoder's bytes are a built frame with a payload that fits, and that is Valid at 0. -/
theorem encodeThenDecodeReturnsTheFrame : Obligations.EncodeThenDecodeReturnsTheFrame := by
  intro t p f s u h
  obtain ⟨-, hp, rfl⟩ := exec_encodeFrame_iff.mp h
  have htag := tagAt_builtFrame t p
  exact exec_tryDecode_iff.mpr ⟨tagBegins_of_tagAt htag, (tryDecode_whole_iff htag).mpr ⟨t, p, hp, rfl, rfl⟩⟩

/-- The payload bytes of a built frame. -/
theorem payload_of_builtFrame (t : Byte) (p : List Byte) :
    ((builtFrame t p).drop 9).take ((builtFrame t p).length - 10) = p := by
  rw [builtFrame_length, Nat.add_sub_cancel_left]
  exact List.take_left

/-- Settles O29: both sides say that the sequence is a built frame with a payload that fits. -/
theorem validFramesAreExactlyTheEncodedOnes : Obligations.ValidFramesAreExactlyTheEncodedOnes := by
  intro f s htx hlen
  constructor
  · rintro ⟨r, h⟩
    obtain ⟨hbegins, hvalid⟩ := exec_tryDecode_iff.mp h
    obtain ⟨t, p, hp, -, rfl⟩ := (tryDecode_whole_iff (tagAt_zero_of_tagBegins (by omega) hbegins)).mp hvalid
    exact ⟨t, rfl, exec_encodeFrame_iff.mpr (by rw [payload_of_builtFrame]; exact ⟨htx, hp, rfl⟩)⟩
  · rintro ⟨t, -, h⟩
    obtain ⟨-, hp, hbytes⟩ := exec_encodeFrame_iff.mp h
    have htag : tagAt f 0 := by
      rw [hbytes]
      exact tagAt_builtFrame t _
    exact ⟨_, exec_tryDecode_iff.mpr ⟨tagBegins_of_tagAt htag, (tryDecode_whole_iff htag).mpr ⟨t, _, hp, rfl, hbytes⟩⟩⟩

/-! ### Where the verdict may change -/

theorem tagBegins_append {s : List Byte} (t : List Byte) {q : Nat} (hlen : q + 6 ≤ s.length) (h : tagBegins s q) :
    tagBegins (s ++ t) q := by
  refine ⟨by simp; omega, fun j hj _ => ?_⟩
  rw [List.getElem?_append_left (by omega)]
  exact h.2 j hj (by omega)

theorem tagBegins_append_right (x : List Byte) {s : List Byte} {q : Nat} (h : tagBegins s q) :
    tagBegins (x ++ s) (x.length + q) := by
  obtain ⟨hq, htag⟩ := h
  refine ⟨by simp [hq], fun j hj hlt => ?_⟩
  rw [Nat.add_assoc, List.getElem?_append_right (Nat.le_add_right _ _), Nat.add_sub_cancel_left]
  rw [List.length_append] at hlt
  exact htag j hj (by omega)

theorem tagBegins_set {s : List Byte} {q j : Nat} (b : Byte) (hj : q + 6 ≤ j) (h : tagBegins s q) :
    tagBegins (s.set j b) q := by
  obtain ⟨hq, htag⟩ := h
  refine ⟨by rwa [List.length_set], fun i hi hlt => ?_⟩
  rw [List.length_set] at hlt
  rw [List.getElem?_set_ne (by omega)]
  exact htag i hi hlt

/-- Settles O27: the decoder reads from its offset on, and only NeedMoreData can change when bytes follow. -/
theorem verdictDependsOnlyOnTheCandidate : Obligations.VerdictDependsOnlyOnTheCandidate := by
  refine ⟨fun x c q s v h => ?before, fun c t q s v hv h => ?after⟩
  all_goals
    rw [exec_tryDecode_iff] at h ⊢
    obtain ⟨hbegins, rfl⟩ := h
  case before =>
    refine ⟨tagBegins_append_right x hbegins, ?_⟩
    rw [← tryDecode_drop, List.drop_left]
  case after =>
    have hprefix : ¬ c.length - q < 9 := fun hshort => hv (tryDecode_needMoreData_iff.mpr (.inl hshort))
    exact ⟨tagBegins_append t (by omega) hbegins, tryDecode_append t hv⟩

theorem byteAt_set_ne {s : List Byte} {i j : Nat} (b : Byte) (h : j ≠ i) : byteAt (s.set j b) i = byteAt s i := by
  simp [byteAt, List.getElem?_set_ne h]

theorem byteAt_set_self {s : List Byte} {i : Nat} (b : Byte) (h : i < s.length) : byteAt (s.set i b) i = b := by
  simp [byteAt, h]

/-- Changing a byte of a valid frame, but for its tag and its length byte, makes it Invalid: either a covered byte changes and
the sum with it, or the checksum byte does (R82, R85). -/
theorem tryDecode_set_eq_invalid {v : VersionCheckAt} {f : List Byte} {r : Frame} {j : Nat} {b : Byte}
    (h : tryDecode v f 0 = .valid r f.length) (hj : 6 ≤ j) (h8 : j ≠ 8) (hlt : j < f.length) (hb : f[j]? ≠ some b) :
    tryDecode v (f.set j b) 0 = .invalid := by
  obtain ⟨-, -, hsum, -, hlen⟩ := tryDecode_valid_iff.mp h
  have hlength : candidateLength (f.set j b) 0 = candidateLength f 0 := byteAt_set_ne b h8
  refine tryDecode_invalid_iff.mpr (.inr ⟨by rw [hlength, List.length_set]; omega, .inr ?_⟩)
  have hcovered : candidateCovered (f.set j b) 0 = (candidateCovered f 0).set (j - 6) b := by
    rw [candidateCovered_eq_take_drop, candidateCovered_eq_take_drop, hlength, List.drop_set, if_neg (by omega),
      List.take_set]
  have hcoveredLength : (candidateCovered f 0).length = 3 + (candidateLength f 0).toNat := by
    rw [candidateCovered, slice_length]
    omega
  rw [hcovered, candidateChecksum, hlength]
  by_cases hlast : j = 9 + (candidateLength f 0).toNat
  · subst hlast
    rw [List.set_eq_of_length_le (by omega), hsum, Nat.zero_add, byteAt_set_self b hlt]
    rintro rfl
    exact hb (by simpa [candidateChecksum] using getElem?_eq_some_byteAt hlt)
  · rw [byteAt_set_ne b (by omega), ← candidateChecksum, ← hsum]
    refine sum8_set_ne (by omega) ?_
    rwa [candidateCovered_eq_take_drop, List.getElem?_take_of_lt (by omega), List.getElem?_drop,
      show 0 + 6 + (j - 6) = j by omega]

/-- Settles O30: the changed byte is behind the tag, so the precondition still holds, and the verdict is Invalid. -/
theorem changingAByteOfAValidFrameMakesItInvalid : Obligations.ChangingAByteOfAValidFrameMakesItInvalid := by
  intro f r s j b h hj h8 hlt hb
  obtain ⟨hbegins, hvalid⟩ := exec_tryDecode_iff.mp h
  exact exec_tryDecode_iff.mpr ⟨tagBegins_set b hj hbegins, tryDecode_set_eq_invalid hvalid hj h8 hlt hb⟩

end Sys2Proof.Machine
end

section
/-! PROOFS. The invariant of the state (10_state.md R19, R20, R24): each of its three parts is kept by the effect of every
operation, so every step keeps it. -/

namespace Sys2Proof.Machine

/-! ### The frames a result carries -/

theorem wf_of_tryDecode_valid {v : VersionCheckAt} {s : List Byte} {q n : Nat} {f : Frame}
    (h : tryDecode v s q = .valid f n) : f.wf := by
  obtain ⟨-, -, -, hwf⟩ := tryDecode_valid_iff_wf.mp h
  exact hwf

/-- What a scan that emits has found: the first tag, and a Valid verdict there (R110). -/
theorem exists_valid_of_scan_emit {v : VersionCheckAt} {buf : List Byte} {f : Frame} {k : Nat}
    (h : scan v buf = (.emit f, k)) : ∃ p n, firstTag buf p ∧ tryDecode v buf p = .valid f n ∧ k = p + n := by
  obtain ⟨-, e⟩ | ⟨p, hp, ⟨-, e⟩ | ⟨-, e⟩ | ⟨f', n, hv, e⟩⟩ := scan_cases v buf <;> rw [e] at h <;> cases h
  exact ⟨p, n, hp, hv, rfl⟩

theorem wf_of_scan_emit {v : VersionCheckAt} {buf : List Byte} {f : Frame} {k : Nat} (h : scan v buf = (.emit f, k)) :
    f.wf := by
  obtain ⟨p, n, -, hv, -⟩ := exists_valid_of_scan_emit h
  exact wf_of_tryDecode_valid hv

theorem wf_of_mem_drainBuf_frames {v : VersionCheckAt} {buf : List Byte} : ∀ f ∈ (drainBuf v buf).frames, f.wf := by
  induction buf using drain_induction v with
  | stop buf r e =>
    rw [drainBuf_of_stop e]
    exact nofun
  | discard buf k e ih => rwa [drainBuf_of_discard e]
  | emit buf f k e ih =>
    rw [drainBuf_of_emit e]
    exact List.forall_mem_cons.mpr ⟨wf_of_scan_emit e, ih⟩

/-- What the TX builder returns carries no frame record (R69). -/
theorem frames_txResult (p : Params) (ls : List (List Byte)) (bs : List Byte) : (txResult p ls bs).frames = [] := by
  unfold txResult
  split
  · split <;> rfl
  · rfl

/-- Every frame that an operation returns is well formed (R24). -/
theorem wf_of_mem_effectOf_frames (i : Instr) (p : Params) (buf : Memory) (ovf : Bool) :
    ∀ f ∈ (effectOf i p buf ovf).result.frames, f.wf := by
  cases i with
  | step =>
    rcases hscan : scan p.versionCheckAt buf with ⟨f | _ | r, k⟩ <;> simp only [effectOf, hscan, Result.frames]
    · exact List.forall_mem_singleton.mpr (wf_of_scan_emit hscan)
    all_goals exact nofun
  | drain => exact wf_of_mem_drainBuf_frames
  | tryDecode bs q =>
    simp only [effectOf]
    split
    next =>
      cases hv : tryDecode p.versionCheckAt bs q with
      | valid f n => exact List.forall_mem_singleton.mpr (wf_of_tryDecode_valid hv)
      | needMoreData | invalid => exact nofun
    next => exact nofun
  | encodeFrame | encodeCommand | encodeWifi =>
    simp only [effectOf, frames_txResult]
    exact nofun
  | feed | decodeResult | decodeState | decodeError =>
    simp only [effectOf]
    split <;> exact nofun
  | reset | status | checksum | verify | findMagic => exact nofun

/-! ### The three parts of the invariant -/

theorem framesWf_append {s t : State} {r : Result} (h : s.framesWf) (hr : ∀ f ∈ r.frames, f.wf)
    (hresults : t.results = s.results ++ [r]) : t.framesWf := by
  rw [State.framesWf, hresults, List.forall_mem_append]
  exact ⟨h, List.forall_mem_singleton.mpr hr⟩

/-- A further result leaves an explained OVF explained. -/
theorem ovfExplained_append {s t : State} {r : Result} (h : s.ovfExplained) (hparams : t.params = s.params)
    (hovf : t.ovf = true → s.ovf = true) (hresults : t.results = s.results ++ [r]) : t.ovfExplained := by
  intro ht
  obtain ⟨hcap, d, hd, hmem⟩ := h (hovf ht)
  rw [hparams, hresults]
  exact ⟨hcap, d, hd, List.mem_append_left _ hmem⟩

/-- A FEED that loses bytes explains OVF itself: BUF_CAP is finite and its result is the E_OVF (R105). -/
theorem apply_effectOf_feed_ovfExplained {s : State} {bs : List Byte}
    (hlost : keptBytes s.params.bufCap s.buf.length bs.length < bs.length) :
    ((effectOf (.feed bs) s.params s.buf s.ovf).apply s).ovfExplained := by
  intro _
  obtain ⟨n, hcap, -⟩ := keptBytes_lt_iff.mp hlost
  refine ⟨⟨n, hcap⟩, _, Nat.sub_pos_of_lt hlost, ?_⟩
  simp [effectOf, Nat.sub_ne_zero_of_lt hlost]

theorem apply_effectOf_ovfExplained (i : Instr) {s : State} (h : s.ovfExplained) :
    ((effectOf i s.params s.buf s.ovf).apply s).ovfExplained := by
  obtain ⟨bs, rfl, e⟩ | ⟨-, e⟩ | ⟨-, -, e⟩ := effectOf_ovf_cases i s.params s.buf s.ovf
  · by_cases hlost : keptBytes s.params.bufCap s.buf.length bs.length < bs.length
    · exact apply_effectOf_feed_ovfExplained hlost
    · exact ovfExplained_append h rfl (by simp [e, hlost]) (apply_results _ s)
  · exact ovfExplained_append h rfl (by simp [e]) (apply_results _ s)
  · exact ovfExplained_append h rfl (by simp [e]) (apply_results _ s)

/-! ### The invariant -/

/-- Every operation keeps the invariant. -/
theorem apply_effectOf_Inv (i : Instr) {s : State} (h : s.Inv) : ((effectOf i s.params s.buf s.ovf).apply s).Inv := by
  obtain ⟨hcap, hovf, hframes⟩ := h
  exact ⟨apply_effectOf_bufWithinCap i hcap, apply_effectOf_ovfExplained i hovf,
    framesWf_append hframes (wf_of_mem_effectOf_frames i _ _ _) (apply_results _ s)⟩

/-- An error that writes no state keeps the invariant. -/
theorem deliver_error_Inv (e : ErrorInfo) {s : State} (h : s.Inv) : (deliver (.error e) s).Inv := by
  obtain ⟨hcap, hovf, hframes⟩ := h
  exact ⟨hcap, ovfExplained_append hovf rfl id rfl, framesWf_append (r := .error e) hframes (List.forall_mem_nil _) rfl⟩

/-- The invariant does not speak of the commands still to be taken. -/
theorem set_pending_Inv {s : State} (cs : List Command) (h : s.Inv) : State.Inv { s with pending := cs } :=
  h

/-- Settles O17: BUF and the results are empty and OVF is 0. -/
theorem invariantHoldsAtReset : Obligations.InvariantHoldsAtReset :=
  fun _ => ⟨fun _ _ => Nat.zero_le _, nofun, nofun⟩

/-- Settles O18: each case of a step keeps the invariant. -/
theorem everyStepKeepsTheInvariant : Obligations.EveryStepKeepsTheInvariant := by
  intro s t hinv h
  obtain rfl | ⟨rest, ⟨i, rfl⟩ | ⟨e, rfl⟩⟩ := step_next_cases h
  · exact hinv
  · exact apply_effectOf_Inv i (set_pending_Inv rest hinv)
  · exact deliver_error_Inv e (set_pending_Inv rest hinv)

end Sys2Proof.Machine
end

section
/-! PROOFS. What the host builds with the TX builder and reads with the value walk (42_rpc_codec.md, 30_encoding.md R71): the
pseudo-operations SENDCMD and SENDWIFI stage by stage, and the values of an RPC result. -/

namespace Sys2Proof.Machine

/-! ### One stage of a pseudo-operation -/

/-- The bytes an operation returned go to the next one (R71). -/
theorem thenWithBytes_ret (bs : List Byte) (s : State) (k : List Byte → State → Outcome) :
    thenWithBytes (ret (.bytes bs) s) k = k bs (deliver (.ok (.bytes bs)) s) := by
  simp [thenWithBytes, ret_eq, onNext, lastBytes]

/-- After an error nothing more is issued (R71). -/
theorem thenWithBytes_raise (e : ErrorInfo) (s : State) (k : List Byte → State → Outcome) :
    thenWithBytes (raise e s) k = raise e s := by
  simp [thenWithBytes, raise_eq, onNext, lastBytes]

/-! ### SENDCMD -/

/-- The command of an argument that fits goes into a frame of type 03 (R71 (b)). -/
theorem sendCmd_of_le {a : List Byte} {s : State} (c : Byte) (htx : s.params.hasTxBuilder = true) (ha : a.length ≤ 255) :
    sendCmd c a s = exec (.encodeFrame 0x03#8 (c :: BitVec.ofNat 8 a.length :: a))
      (deliver (.ok (.bytes (c :: BitVec.ofNat 8 a.length :: a))) s) := by
  rw [sendCmd, exec_encodeCommand, needTxBuilder_of_present htx, needFits_of_le ha, thenWithBytes_ret]
  rfl

/-- An argument that does not fit is the E_LEN of ENCODE_COMMAND (R124). -/
theorem sendCmd_of_lt {a : List Byte} {s : State} (c : Byte) (htx : s.params.hasTxBuilder = true) (ha : 255 < a.length) :
    sendCmd c a s = raise (.len a.length) s := by
  rw [sendCmd, exec_encodeCommand, needTxBuilder_of_present htx, needFits_of_lt ha, thenWithBytes_raise]

/-- Settles O33: the argument fits its command, the command fits its frame, or one of the two stages is E_LEN. -/
theorem sendCmdFitsExactlyTo253Bytes : Obligations.SendCmdFitsExactlyTo253Bytes := by
  intro c a s htx
  by_cases ha : a.length ≤ 255
  · rw [sendCmd_of_le c htx ha, exec_encodeFrame, needTxBuilder_of_present (s := deliver _ s) htx]
    refine ⟨[.ok (.bytes (c :: BitVec.ofNat 8 a.length :: a))], ?_⟩
    by_cases hframe : a.length ≤ 253
    · rw [needFits_of_le (by simp only [List.length_cons]; omega)]
      exact ⟨_, rfl, fun _ => rfl, fun h => by omega, fun h => by omega⟩
    · rw [needFits_of_lt (by simp only [List.length_cons]; omega)]
      exact ⟨_, rfl, fun h => by omega, fun _ _ => rfl, fun h => by omega⟩
  · rw [sendCmd_of_lt c htx (by omega)]
    refine ⟨[], _, by rw [List.append_nil]; rfl, fun h => by omega, fun _ h => by omega, fun _ => rfl⟩

/-! ### SENDWIFI -/

/-- The argument of a WifiSettings command: both strings, each after its length byte (R59). -/
def wifiArgument (u w : List Byte) : List Byte :=
  BitVec.ofNat 8 u.length :: u ++ BitVec.ofNat 8 w.length :: w

@[simp] theorem wifiArgument_length (u w : List Byte) : (wifiArgument u w).length = u.length + w.length + 2 := by
  simp [wifiArgument]
  omega

/-- Two strings that fit are the argument of SENDCMD 01 (R71 (c)). -/
theorem sendWifi_of_le {u w : List Byte} {s : State} (htx : s.params.hasTxBuilder = true) (hu : u.length ≤ 255)
    (hw : w.length ≤ 255) :
    sendWifi u w s = sendCmd 0x01#8 (wifiArgument u w) (deliver (.ok (.bytes (wifiArgument u w))) s) := by
  rw [sendWifi, exec_encodeWifi, needTxBuilder_of_present htx, needFits_of_le hu, needFits_of_le hw, thenWithBytes_ret]
  rfl

theorem sendWifi_of_ssid_lt {u : List Byte} {s : State} (w : List Byte) (htx : s.params.hasTxBuilder = true)
    (hu : 255 < u.length) : sendWifi u w s = raise (.len u.length) s := by
  rw [sendWifi, exec_encodeWifi, needTxBuilder_of_present htx, needFits_of_lt hu, thenWithBytes_raise]

theorem sendWifi_of_password_lt {u w : List Byte} {s : State} (htx : s.params.hasTxBuilder = true) (hu : u.length ≤ 255)
    (hw : 255 < w.length) : sendWifi u w s = raise (.len w.length) s := by
  rw [sendWifi, exec_encodeWifi, needTxBuilder_of_present htx, needFits_of_le hu, needFits_of_lt hw, thenWithBytes_raise]

/-- Settles O34: a string is too long, or the argument goes through SENDCMD, which fits 253 bytes. -/
theorem sendWifiFitsExactlyTo251Bytes : Obligations.SendWifiFitsExactlyTo251Bytes := by
  intro u w s htx
  by_cases hu : u.length ≤ 255
  · by_cases hw : w.length ≤ 255
    · obtain ⟨rs, r, hsend, hframe, hcommand, hargument⟩ := sendCmdFitsExactlyTo253Bytes 0x01#8 (wifiArgument u w)
        (deliver (.ok (.bytes (wifiArgument u w))) s) htx
      rw [wifiArgument_length] at hframe hcommand hargument
      rw [sendWifi_of_le htx hu hw, hsend]
      refine ⟨.ok (.bytes (wifiArgument u w)) :: rs, r, by simp [deliver], fun h => hframe (by omega), fun _ _ _ => ⟨?_, ?_⟩,
        fun h => by omega, fun _ h => by omega⟩
      · exact fun h => hcommand (by omega) (by omega)
      · exact fun h => hargument (by omega)
    · rw [sendWifi_of_password_lt htx hu (by omega)]
      exact ⟨[], _, by rw [List.append_nil]; rfl, fun h => by omega, fun _ _ h => by omega, fun h => by omega,
        fun _ _ => rfl⟩
  · rw [sendWifi_of_ssid_lt w htx (by omega)]
    exact ⟨[], _, by rw [List.append_nil]; rfl, fun h => by omega, fun _ h => by omega, fun _ => rfl, fun h => by omega⟩

/-! ### The values of an RPC result -/

/-- Settles O37: the walk reads the values one by one, and then nothing is left. -/
theorem prefixedValuesDecodeExactly : Obligations.PrefixedValuesDecodeExactly := by
  intro c d vs s hvs
  have hwalk : valueWalk (prefixedValues vs) 0 = vs := by
    simpa using valueWalk_prefixedValues_append hvs []
  rw [exec_decodeResult_cons_cons, hwalk]
  rfl

end Sys2Proof.Machine
end

section
/-! PROOFS. The bytes of the stream (43_stream_demux.md, 20_memory.md): feeding in parts, the scan before and after bytes are
fed, and the drain loop as a run of scans. -/

namespace Sys2Proof.Machine

/-! ### Feeding in parts -/

/-- What is kept of two parts together is what is kept of the first and then of the second. -/
theorem keptBytes_add (cap : Capacity) (len m n : Nat) :
    keptBytes cap len (m + n) = keptBytes cap len m + keptBytes cap (len + keptBytes cap len m) n := by
  cases cap with
  | unbounded => rfl
  | bounded c => simp only [keptBytes]; omega

/-- Where the first part loses a byte the buffer is full, so the second part keeps none. -/
theorem keptBytes_eq_zero_of_lost {cap : Capacity} {len m : Nat} (h : keptBytes cap len m < m) (n : Nat) :
    keptBytes cap (len + keptBytes cap len m) n = 0 := by
  obtain ⟨c, rfl, -⟩ := keptBytes_lt_iff.mp h
  simp only [keptBytes] at h ⊢
  omega

/-- The bytes kept of two parts are those kept of each. -/
theorem take_keptBytes_append (cap : Capacity) (len : Nat) (x y : List Byte) :
    (x ++ y).take (keptBytes cap len (x.length + y.length)) =
      x.take (keptBytes cap len x.length) ++ y.take (keptBytes cap (len + keptBytes cap len x.length) y.length) := by
  rw [keptBytes_add, List.take_append]
  obtain hlost | hkept := (keptBytes_le cap len x.length).lt_or_eq
  · rw [keptBytes_eq_zero_of_lost hlost, Nat.add_zero, Nat.sub_eq_zero_of_le hlost.le]
  · rw [hkept, Nat.add_sub_cancel_left, List.take_of_length_le (Nat.le_add_right _ _), List.take_length]

/-- Settles O41: the bytes kept of the two parts, `m` and `n`, add up, and with them those dropped. -/
theorem feedIsAConcatenationLaw : Obligations.FeedIsAConcatenationLaw := by
  intro x y s
  have hx := keptBytes_le s.params.bufCap s.buf.length x.length
  have hy := keptBytes_le s.params.bufCap (s.buf.length + keptBytes s.params.bufCap s.buf.length x.length) y.length
  have htake := take_keptBytes_append s.params.bufCap s.buf.length x y
  have hadd := keptBytes_add s.params.bufCap s.buf.length x.length y.length
  rw [hadd] at htake
  generalize hm : keptBytes s.params.bufCap s.buf.length x.length = m at *
  generalize hn : keptBytes s.params.bufCap (s.buf.length + m) y.length = n at *
  have hlost : m + n < x.length + y.length ↔ m < x.length ∨ n < y.length := by omega
  have hdropped : x.length + y.length - (m + n) = x.length - m + (y.length - n) := by omega
  refine ⟨{ s with buf := s.buf ++ (x ++ y).take (m + n), ovf := s.ovf || decide (m + n < x.length + y.length) }, _, _, _,
    x.length - m, y.length - n, ?pair, ?whole, rfl, rfl, rfl⟩
  case pair => simp [runOps_cons, effectOf, Effect.apply, hm, hn, Nat.min_eq_left hx, htake, hlost, Bool.or_assoc]
  case whole => simp [runOps_cons, effectOf, Effect.apply, hadd, hdropped]

/-- A FEED that loses no byte keeps all its bytes, and would in a shorter buffer (R104). -/
theorem keptBytes_of_feedFits {bs : List Byte} {s : State} {len : Nat} (h : feedFits bs s) (hlen : len ≤ s.buf.length) :
    keptBytes s.params.bufCap len bs.length = bs.length := by
  cases hcap : s.params.bufCap with
  | unbounded => rfl
  | bounded c =>
    have := h c hcap
    simp only [keptBytes]
    omega

/-! ### One scan -/

/-- What STEP's answer tells of the scan (R108). -/
theorem scan_of_exec_step {s : State} {b : Memory} {r : StepResult}
    (h : exec .step s = .next { s with buf := b, results := s.results ++ [.ok (.step r)] }) :
    ∃ k, scan s.params.versionCheckAt s.buf = (r, k) ∧ s.buf.drop k = b := by
  rcases hscan : scan s.params.versionCheckAt s.buf with ⟨r', k⟩
  rw [exec_step_of_scan hscan] at h
  simp only [Host.Outcome.next.injEq, State.mk.injEq, List.append_cancel_left_eq, List.cons.injEq, Result.ok.injEq,
    Value.step.injEq, and_true, true_and] at h
  obtain ⟨hb, rfl⟩ := h
  exact ⟨k, rfl, hb⟩

/-- Bytes fed behind the buffer change nothing of a scan that does not stop (R41). -/
theorem scan_append_of_eq {v : VersionCheckAt} {buf : List Byte} {r : StepResult} {k : Nat} (y : List Byte)
    (h : scan v buf = (r, k)) (hr : ∀ reason, r ≠ .stop reason) :
    scan v (buf ++ y) = (r, k) ∧ (buf ++ y).drop k = buf.drop k ++ y := by
  have hk := scan_count_le v buf
  rw [h] at hk
  exact ⟨by rw [scan_append y (by rwa [h]), h], List.drop_append_of_le_length hk⟩

/-- A scan removes no byte exactly where it stops (R113). -/
theorem scan_stop_iff {v : VersionCheckAt} {buf : List Byte} {r : StepResult} {k : Nat} (h : scan v buf = (r, k)) :
    (∃ reason, r = .stop reason) ↔ k = 0 := by
  constructor
  · rintro ⟨reason, rfl⟩
    have hstop := scan_stop (congrArg Prod.fst h)
    rw [h] at hstop
    exact congrArg Prod.snd hstop
  · intro hk
    by_contra! hr
    have := (scan_progress (v := v) (buf := buf) (by rwa [h])).1
    rw [h] at this
    simp only at this
    omega

/-- A scan that emits removes at least the ten bytes of the smallest frame (R113). -/
theorem ten_le_of_scan_emit {v : VersionCheckAt} {buf : List Byte} {f : Frame} {k : Nat} (h : scan v buf = (.emit f, k)) :
    10 ≤ k := by
  obtain ⟨p, n, -, hv, rfl⟩ := exists_valid_of_scan_emit h
  have := tryDecode_valid_count hv
  omega

/-! ### The drain loop -/

/-- A drain ends where the scan stops, for the reason it returns (R111). -/
theorem scan_drainBuf_rest (v : VersionCheckAt) (buf : List Byte) :
    scan v (drainBuf v buf).rest = (.stop (drainBuf v buf).reason, 0) := by
  induction buf using drain_induction v with
  | stop buf r e => rwa [drainBuf_of_stop e]
  | discard buf k e ih => rwa [drainBuf_of_discard e]
  | emit buf f k e ih =>
    rw [drainBuf_of_emit e]
    exact ih

/-- Draining, feeding and draining again comes to feeding and draining once: the frames of both, and the second's end. -/
theorem drainBuf_append (v : VersionCheckAt) (buf y : List Byte) :
    drainBuf v (buf ++ y) =
      { drainBuf v ((drainBuf v buf).rest ++ y) with
        frames := (drainBuf v buf).frames ++ (drainBuf v ((drainBuf v buf).rest ++ y)).frames } := by
  induction buf using drain_induction v with
  | stop buf r e =>
    rw [drainBuf_of_stop e]
    rfl
  | discard buf k e ih =>
    obtain ⟨happend, hdrop⟩ := scan_append_of_eq y e nofun
    rw [drainBuf_of_discard e, drainBuf_of_discard happend, hdrop, ih]
  | emit buf f k e ih =>
    obtain ⟨happend, hdrop⟩ := scan_append_of_eq y e nofun
    rw [drainBuf_of_emit e, drainBuf_of_emit happend, hdrop, ih]
    rfl

theorem drainBuf_rest_length_le (v : VersionCheckAt) (buf : List Byte) : (drainBuf v buf).rest.length ≤ buf.length := by
  obtain ⟨k, -, e⟩ := drainBuf_rest_eq_drop v buf
  rw [e, List.length_drop]
  exact Nat.sub_le _ _

/-- Ten bytes have left the buffer for every frame of a drain (R113). -/
theorem drainBuf_frames_bound (v : VersionCheckAt) (buf : List Byte) :
    10 * (drainBuf v buf).frames.length + (drainBuf v buf).rest.length ≤ buf.length := by
  induction buf using drain_induction v with
  | stop buf r e => simp [drainBuf_of_stop e]
  | discard buf k e ih =>
    rw [List.length_drop] at ih
    rw [drainBuf_of_discard e]
    omega
  | emit buf f k e ih =>
    have hcount := scan_count_le v buf
    have hten := ten_le_of_scan_emit e
    rw [e] at hcount
    rw [List.length_drop] at ih
    simp only [drainBuf_of_emit e, Drained.withFrame, List.length_cons]
    omega

/-- What DRAIN's answer tells of the loop (R111). -/
theorem drainBuf_of_exec_drain {s : State} {b : Memory} {fs : List Frame} {reason : StopReason}
    (h : exec .drain s = .next { s with buf := b, results := s.results ++ [.ok (.drain fs reason)] }) :
    drainBuf s.params.versionCheckAt s.buf = { frames := fs, reason := reason, rest := b } := by
  rw [exec_drain_of_eq rfl] at h
  simp only [Host.Outcome.next.injEq, State.mk.injEq, List.append_cancel_left_eq, List.cons.injEq, Result.ok.injEq,
    Value.drain.injEq, and_true, true_and] at h
  obtain ⟨hb, hfs, hreason⟩ := h
  rw [← hb, ← hfs, ← hreason]

/-- Settles O46: a scan that stops leaves the buffer as it was, and a drain leaves one on which the scan stops. -/
theorem stopAndDrainAreIdempotent : Obligations.StopAndDrainAreIdempotent := by
  refine ⟨fun s b reason h => ?step, fun s b fs reason h => ?drain⟩
  case step =>
    obtain ⟨k, hscan, -⟩ := scan_of_exec_step h
    have hstop := scan_stop (congrArg Prod.fst hscan)
    simp [runOps_cons, effectOf, Effect.apply, hstop]
  case drain =>
    have hdrain := drainBuf_of_exec_drain h
    have hagain := drainBuf_of_stop (scan_drainBuf_rest s.params.versionCheckAt s.buf)
    rw [hdrain] at hagain
    simp [runOps_cons, effectOf, Effect.apply, hdrain, hagain]

/-- Settles O47: the counts of one scan, and ten bytes for each frame of a drain. -/
theorem scanMakesProgress : Obligations.ScanMakesProgress := by
  refine ⟨fun s => ?_, fun s => ⟨_, _, _, exec_drain_of_eq rfl, drainBuf_frames_bound _ _⟩⟩
  have hcount := scan_count_le s.params.versionCheckAt s.buf
  rcases hscan : scan s.params.versionCheckAt s.buf with ⟨r, k⟩
  rw [hscan] at hcount
  exact ⟨r, k, hcount, exec_step_of_scan hscan, scan_stop_iff hscan⟩

/-- Settles O52: the second drain goes on where the first stopped, with the bytes fed behind. -/
theorem chunkingNeverChangesTheFrames : Obligations.ChunkingNeverChangesTheFrames := by
  intro y s hfits
  have hkept := keptBytes_of_feedFits hfits (Nat.le_refl _)
  have hkeptAfter := keptBytes_of_feedFits hfits (drainBuf_rest_length_le s.params.versionCheckAt s.buf)
  have happend := drainBuf_append s.params.versionCheckAt s.buf y
  generalize hd₁ : drainBuf s.params.versionCheckAt s.buf = d₁ at *
  generalize hd₂ : drainBuf s.params.versionCheckAt (d₁.rest ++ y) = d₂ at *
  refine ⟨d₁.frames, d₂.frames, d₁.reason, d₂.reason, d₂.rest, ?_, ?_⟩
  · simp [runOps_cons, effectOf, Effect.apply, hd₁, hkeptAfter, hd₂]
  · simp [runOps_cons, effectOf, Effect.apply, hkept, happend]

/-- Settles O54: the FEED fits after the STEP too, and the scan does not see the bytes fed. -/
theorem feedAndStepCommute : Obligations.FeedAndStepCommute := by
  intro y s b r hfits h hr
  obtain ⟨k, hscan, rfl⟩ := scan_of_exec_step h
  obtain ⟨happend, hdrop⟩ := scan_append_of_eq y hscan hr
  have hkept := keptBytes_of_feedFits hfits (Nat.le_refl _)
  have hkeptAfter := keptBytes_of_feedFits hfits (Nat.sub_le s.buf.length k)
  constructor
  · simp [runOps_cons, effectOf, Effect.apply, hscan, hkeptAfter]
  · simp [runOps_cons, effectOf, Effect.apply, happend, hdrop, hkept]

/-- Settles O55: the scan stops on the buffer, which is full for the FEED. -/
theorem fullBufferWithoutTagIsStuckUntilReset : Obligations.FullBufferWithoutTagIsStuckUntilReset := by
  rintro s n y hcap rfl hfree hy
  have hdrain := drainBuf_of_stop (scan_of_tagFree (v := s.params.versionCheckAt) hfree)
  have hlen := List.length_pos_iff.mpr hy
  constructor <;> simp [runOps_cons, effectOf, Effect.apply, hdrain, hcap, keptBytes_of_full, hlen, hy]

end Sys2Proof.Machine
end

section
/-! PROOFS. The frames in the stream (43_stream_demux.md sections 4 and 5): where a built frame is found, what stands in front
of it, and how a candidate that is no frame is passed or waited for. -/

namespace Sys2Proof.Machine

/-! ### A built frame behind bytes without a tag -/

theorem tagFree_nil : tagFree [] := by
  intro p htag
  have := tagAt_length htag
  simp at this

/-- A tag behind bytes that hold none is the first: an earlier one would overlap it (R48). -/
theorem firstTag_append {x y : List Byte} (hx : tagFree x) (hy : tagAt y 0) : firstTag (x ++ y) x.length := by
  have htag : tagAt (x ++ y) x.length := by
    rw [← List.drop_left (l₁ := x) (l₂ := y), tagAt_drop] at hy
    exact hy
  refine ⟨htag, fun j hj hearlier => hx j ?_⟩
  have hgap : 6 ≤ x.length - j :=
    tagAt_no_overlap hearlier (by rwa [Nat.add_sub_cancel' hj.le]) (Nat.sub_pos_of_lt hj)
  exact (tagAt_append_left y (by omega)).mp hearlier

theorem tagAt_append {s : List Byte} {q : Nat} (h : tagAt s q) (y : List Byte) : tagAt (s ++ y) q :=
  (tagAt_append_left y (tagAt_length h)).mpr h

/-- The scan emits the first built frame and removes what stands before it with it (R110). -/
theorem scan_builtFrame (v : VersionCheckAt) {x : List Byte} (t : Byte) {p : List Byte} (hx : tagFree x)
    (hp : p.length ≤ 255) (y : List Byte) :
    scan v (x ++ builtFrame t p ++ y) = (.emit (builtRecord t p), (x ++ builtFrame t p).length) := by
  have htag : firstTag (x ++ builtFrame t p ++ y) x.length := by
    rw [List.append_assoc]
    exact firstTag_append hx (tagAt_append (tagAt_builtFrame t p) y)
  rw [scan_of_firstTag htag, tryDecode_builtFrame v x t hp, List.length_append]

theorem drainBuf_builtFrame (v : VersionCheckAt) {x : List Byte} (t : Byte) {p : List Byte} (hx : tagFree x)
    (hp : p.length ≤ 255) (y : List Byte) :
    drainBuf v (x ++ builtFrame t p ++ y) = (drainBuf v y).withFrame (builtRecord t p) := by
  rw [drainBuf_of_emit (scan_builtFrame v t hx hp y), List.drop_left]

theorem drainBuf_of_tagFree (v : VersionCheckAt) {z : List Byte} (hz : tagFree z) :
    drainBuf v z = { frames := [], reason := .noMagic, rest := z } :=
  drainBuf_of_stop (scan_of_tagFree hz)

/-- A stream of built frames, with bytes without a tag before each and at its end, is drained frame by frame. -/
theorem drainBuf_stream (v : VersionCheckAt) {xs : List (List Byte × Byte × List Byte)} {z : List Byte}
    (hxs : ∀ x ∈ xs, tagFree x.1 ∧ x.2.2.length ≤ 255) (hz : tagFree z) :
    drainBuf v (xs.flatMap (fun x => x.1 ++ builtFrame x.2.1 x.2.2) ++ z) =
      { frames := xs.map fun x => builtRecord x.2.1 x.2.2, reason := .noMagic, rest := z } := by
  induction xs with
  | nil => exact drainBuf_of_tagFree v hz
  | cons x xs ih =>
    obtain ⟨⟨hgap, hlen⟩, hrest⟩ := List.forall_mem_cons.mp hxs
    rw [List.flatMap_cons, List.append_assoc, drainBuf_builtFrame v _ hgap hlen, ih hrest]
    rfl

/-- Settles O50: the drain of the stream, frame by frame. -/
theorem cleanStreamIsDecodedExactly : Obligations.CleanStreamIsDecodedExactly := by
  intro xs z s hxs hz hbuf
  exact exec_drain_of_eq (by rw [hbuf, drainBuf_stream _ hxs hz])

/-! ### A frame with a wrong checksum byte -/

/-- Changing a byte behind a tag leaves the tag. -/
theorem tagAt_set {s : List Byte} {q j : Nat} (b : Byte) (hj : q + 6 ≤ j) : tagAt (s.set j b) q ↔ tagAt s q := by
  rw [tagAt, tagAt, List.drop_set, if_neg (by omega), List.take_set, List.set_eq_of_length_le (by simp; omega)]

/-- The byte of a built frame at its end is the checksum of its record. -/
theorem getElem?_builtFrame_checksum (t : Byte) (p : List Byte) :
    (builtFrame t p)[9 + p.length]? = some (builtRecord t p).checksum := by
  simp [builtFrame, builtRecord, Nat.add_comm 9]

/-- A built frame with a wrong checksum byte is Invalid (R82). -/
theorem tryDecode_wrongChecksum (v : VersionCheckAt) {t c : Byte} {p : List Byte} (hp : p.length ≤ 255)
    (hc : c ≠ (builtRecord t p).checksum) : tryDecode v ((builtFrame t p).set (9 + p.length) c) 0 = .invalid := by
  refine tryDecode_set_eq_invalid ((tryDecode_whole_iff (tagAt_builtFrame t p)).mpr ⟨t, p, hp, rfl, rfl⟩) (by omega)
    (by omega) (by rw [builtFrame_length]; omega) ?_
  rw [getElem?_builtFrame_checksum, ne_eq, Option.some_inj]
  exact hc.symm

theorem scan_of_invalid {v : VersionCheckAt} {buf : List Byte} {p : Nat} (hp : firstTag buf p)
    (h : tryDecode v buf p = .invalid) : scan v buf = (.discard, 1) := by
  rw [scan_of_firstTag hp, h]

/-- The scan of a built frame with a wrong checksum byte discards its first byte, whatever follows. -/
theorem scan_wrongChecksum (v : VersionCheckAt) {t c : Byte} {p : List Byte} (hp : p.length ≤ 255)
    (hc : c ≠ (builtRecord t p).checksum) (y : List Byte) :
    scan v ((builtFrame t p).set (9 + p.length) c ++ y) = (.discard, 1) := by
  have hinvalid := tryDecode_wrongChecksum v hp hc
  have htag : tagAt ((builtFrame t p).set (9 + p.length) c) 0 := (tagAt_set c (by omega)).mpr (tagAt_builtFrame t p)
  refine scan_of_invalid ⟨tagAt_append htag y, fun j hj => absurd hj (Nat.not_lt_zero j)⟩ ?_
  rw [tryDecode_append y (by rw [hinvalid]; exact nofun), hinvalid]

/-- Settles O51: the first byte of the wrong frame goes, what is left of it holds no tag, and the next frame is behind it. -/
theorem corruptedFrameIsSkipped : Obligations.CorruptedFrameIsSkipped := by
  intro t₁ t₂ c p₁ p₂ s hp₁ hp₂ hc hinner hbuf
  have hdiscard := scan_wrongChecksum s.params.versionCheckAt hp₁ hc (builtFrame t₂ p₂)
  have hlen : 1 ≤ ((builtFrame t₁ p₁).set (9 + p₁.length) c).length := by
    rw [List.length_set, builtFrame_length]
    omega
  generalize (builtFrame t₁ p₁).set (9 + p₁.length) c = wrong at *
  have hfree : tagFree (wrong.drop 1) := fun j htag => hinner (1 + j) (by omega) (tagAt_drop.mp htag)
  have hemit := scan_builtFrame s.params.versionCheckAt t₂ hfree hp₂ []
  have hstop := scan_of_tagFree (v := s.params.versionCheckAt) tagFree_nil
  have hdrop : s.buf.drop 1 = wrong.drop 1 ++ builtFrame t₂ p₂ := by rw [hbuf, List.drop_append_of_le_length hlen]
  rw [List.append_nil] at hemit
  rw [← hbuf] at hdiscard
  generalize wrong.drop 1 ++ builtFrame t₂ p₂ = rest at *
  constructor
  · simp [-List.drop_one, runOps_cons, effectOf, Effect.apply, hdiscard, hdrop, hemit, hstop]
  · refine exec_drain_of_eq (d := { frames := [builtRecord t₂ p₂], reason := .noMagic, rest := [] }) ?_
    rw [drainBuf_of_discard hdiscard, hdrop, drainBuf_of_emit hemit, List.drop_length, drainBuf_of_stop hstop]
    rfl

/-! ### An Invalid candidate, and one that is not whole -/

theorem runOps_step {s : State} {r : StepResult} {k : Nat} (h : scan s.params.versionCheckAt s.buf = (r, k))
    (is : List Instr) :
    runOps (.step :: is) s = runOps is { s with buf := s.buf.drop k, results := s.results ++ [.ok (.step r)] } := by
  rw [runOps, exec_step_of_scan h, onNext]

/-- As long as the Invalid candidate is not at offset 0, a Discard moves it one byte nearer (R109). -/
theorem runOps_replicate_step_of_invalid {p : Nat} {s : State} (hp : firstTag s.buf p)
    (h : tryDecode s.params.versionCheckAt s.buf p = .invalid) :
    runOps (List.replicate (p + 1) .step) s = .next { s with
      buf := s.buf.drop (p + 1)
      results := s.results ++ List.replicate (p + 1) (.ok (.step .discard)) } := by
  induction p generalizing s with
  | zero => simp [runOps_step (scan_of_invalid hp h)]
  | succ p ih =>
    have hscan := scan_of_invalid hp h
    rw [Nat.add_comm] at hp h
    rw [List.replicate_succ, runOps_step hscan, ih]
    case hp => exact firstTag_drop hp
    case h => exact (tryDecode_drop _ _ _ _).trans h
    rw [List.drop_drop, Nat.add_comm 1]
    simp [List.replicate_succ]

/-- Settles O48: the candidate is Invalid wherever the bytes before it have gone. -/
theorem invalidCandidateIsRetriedUntilItsFirstByteGoes : Obligations.InvalidCandidateIsRetriedUntilItsFirstByteGoes := by
  intro s p hp h
  obtain ⟨-, hinvalid⟩ := exec_tryDecode_iff.mp h
  exact runOps_replicate_step_of_invalid hp hinvalid

/-- Settles O49: the verdict at the first tag is NeedMoreData, so the scan stops. -/
theorem pendingCandidateBlocksTheStream : Obligations.PendingCandidateBlocksTheStream := by
  intro s p hp hshort
  have hverdict : tryDecode s.params.versionCheckAt s.buf p = .needMoreData := by
    rw [tryDecode_needMoreData_iff]
    obtain hprefix | ⟨v, n, hv, hn, hlen, hver⟩ := hshort
    · exact .inl (by omega)
    · obtain rfl : candidateVersion s.buf p = v := byteAt_of_getElem? hv
      obtain rfl : candidateLength s.buf p = n := byteAt_of_getElem? hn
      refine .inr ⟨by omega, fun ⟨hat, hne⟩ => ?_⟩
      obtain hver | hcomplete := hver
      · exact hne hver
      · rw [hat] at hcomplete
        cases hcomplete
  have hscan : scan s.params.versionCheckAt s.buf = (.stop .needMoreData, 0) := by rw [scan_of_firstTag hp, hverdict]
  exact ⟨exec_step_of_stop hscan, exec_drain_of_eq (drainBuf_of_stop hscan)⟩

/-! ### The frames of a drain in the bytes drained -/

/-- What a scan that emits removes: the bytes before the tag, and exactly those of the frame (R110). -/
theorem eq_gap_append_builtFrame_of_scan_emit {v : VersionCheckAt} {buf : List Byte} {f : Frame} {k : Nat}
    (h : scan v buf = (.emit f, k)) : ∃ gap, buf = gap ++ builtFrame f.ftype f.payload ++ buf.drop k := by
  obtain ⟨p, n, hp, hv, rfl⟩ := exists_valid_of_scan_emit h
  refine ⟨buf.take p, ?_⟩
  rw [List.append_assoc, ← drop_eq_builtFrame_append_of_valid hp.1 hv, List.take_append_drop]

/-- The bytes drained, behind bytes `x` already discarded: a gap and the bytes of a frame for each frame, then the bytes
discarded after the last one. -/
theorem drainBuf_decomposition (v : VersionCheckAt) (buf : List Byte) : ∀ x : List Byte,
    ∃ (gaps : List (List Byte)) (discarded : List Byte),
    gaps.length = (drainBuf v buf).frames.length ∧
    x ++ buf = (gaps.zip (drainBuf v buf).frames).flatMap (fun g => g.1 ++ builtFrame g.2.ftype g.2.payload) ++
      discarded ++ (drainBuf v buf).rest := by
  induction buf using drain_induction v with
  | stop buf r e =>
    intro x
    rw [drainBuf_of_stop e]
    exact ⟨[], x, rfl, rfl⟩
  | discard buf k e ih =>
    intro x
    obtain ⟨gaps, discarded, hlen, hbytes⟩ := ih (x ++ buf.take k)
    rw [List.append_assoc, List.take_append_drop] at hbytes
    rw [drainBuf_of_discard e]
    exact ⟨gaps, discarded, hlen, hbytes⟩
  | emit buf f k e ih =>
    intro x
    obtain ⟨gap, hgap⟩ := eq_gap_append_builtFrame_of_scan_emit e
    obtain ⟨gaps, discarded, hlen, hbytes⟩ := ih []
    rw [drainBuf_of_emit e]
    refine ⟨(x ++ gap) :: gaps, discarded, congrArg (· + 1) hlen, ?_⟩
    rw [List.nil_append] at hbytes
    conv_lhs => rw [hgap, hbytes]
    simp [Drained.withFrame]

/-- Settles O53: the bytes drained, with nothing discarded before them. -/
theorem drainedFramesStandInTheStreamInOrder : Obligations.DrainedFramesStandInTheStreamInOrder := by
  intro s
  obtain ⟨gaps, discarded, hlen, hbytes⟩ := drainBuf_decomposition s.params.versionCheckAt s.buf []
  exact ⟨_, _, _, gaps, discarded, exec_drain_of_eq rfl, hlen,
    fun f hf => ⟨wf_of_mem_drainBuf_frames f hf, builtRecord_of_wf (wf_of_mem_drainBuf_frames f hf)⟩, hbytes⟩

/-! ### The drain as STEPs -/

/-- The frames a STEP's result carries. -/
def StepResult.emitted : StepResult → List Frame
  | .emit f => [f]
  | .discard => []
  | .stop _ => []

/-- The scans of a buffer one after the other: the results of those that do not stop, then the reason and the buffer of the
one that does (R71 (d), R111). -/
inductive ScanTrace (v : VersionCheckAt) : List Byte → List StepResult → StopReason → List Byte → Prop where
  | stop {buf : List Byte} {reason : StopReason} (hscan : scan v buf = (.stop reason, 0)) :
      ScanTrace v buf [] reason buf
  | next {buf rest : List Byte} {r : StepResult} {k : Nat} {rs : List StepResult} {reason : StopReason}
      (hscan : scan v buf = (r, k)) (hr : ∀ reason', r ≠ .stop reason') (htrace : ScanTrace v (buf.drop k) rs reason rest) :
      ScanTrace v buf (r :: rs) reason rest

/-- A drain has a trace that ends as it does and emits its frames (R111). -/
theorem exists_scanTrace (v : VersionCheckAt) (buf : List Byte) :
    ∃ rs, ScanTrace v buf rs (drainBuf v buf).reason (drainBuf v buf).rest ∧
      rs.flatMap StepResult.emitted = (drainBuf v buf).frames := by
  induction buf using drain_induction v with
  | stop buf r e =>
    rw [drainBuf_of_stop e]
    exact ⟨[], .stop e, rfl⟩
  | discard buf k e ih =>
    obtain ⟨rs, htrace, hframes⟩ := ih
    rw [drainBuf_of_discard e]
    exact ⟨.discard :: rs, .next e nofun htrace, hframes⟩
  | emit buf f k e ih =>
    obtain ⟨rs, htrace, hframes⟩ := ih
    rw [drainBuf_of_emit e]
    exact ⟨.emit f :: rs, .next e nofun htrace, congrArg (f :: ·) hframes⟩

/-- Each scan of a trace removes at least one byte (R113). -/
theorem ScanTrace.length_le {v : VersionCheckAt} {buf rest : List Byte} {rs : List StepResult} {reason : StopReason}
    (h : ScanTrace v buf rs reason rest) : rs.length ≤ buf.length := by
  induction h with
  | stop hscan => exact Nat.zero_le _
  | next hscan hr _ ih =>
    have hprogress := scan_progress (by rwa [hscan])
    rw [hscan] at hprogress
    rw [List.length_drop] at ih
    rw [List.length_cons]
    omega

theorem ScanTrace.ne_stop {v : VersionCheckAt} {buf rest : List Byte} {rs : List StepResult} {reason : StopReason}
    (h : ScanTrace v buf rs reason rest) : ∀ r ∈ rs, ∀ reason', r ≠ .stop reason' := by
  induction h with
  | stop hscan => exact nofun
  | next hscan hr _ ih => exact List.forall_mem_cons.mpr ⟨hr, ih⟩

theorem stepUntilStop_of_stop {s : State} {reason : StopReason}
    (h : scan s.params.versionCheckAt s.buf = (.stop reason, 0)) (n : Nat) :
    stepUntilStop (n + 1) s = .next { s with results := s.results ++ [.ok (.step (.stop reason))] } := by
  rw [stepUntilStop, exec_step_of_stop h]
  simp [onNext]

theorem stepUntilStop_of_ne_stop {s : State} {r : StepResult} {k : Nat}
    (h : scan s.params.versionCheckAt s.buf = (r, k)) (hr : ∀ reason, r ≠ .stop reason) (n : Nat) :
    stepUntilStop (n + 1) s =
      stepUntilStop n { s with buf := s.buf.drop k, results := s.results ++ [.ok (.step r)] } := by
  rw [stepUntilStop, exec_step_of_scan h]
  cases r with
  | stop reason => exact absurd rfl (hr reason)
  | emit | discard => simp [onNext]

/-- STEPs until one stops return the results of the trace and the Stop, and leave its buffer. -/
theorem ScanTrace.stepUntilStop_eq {v : VersionCheckAt} {buf rest : List Byte} {rs : List StepResult} {reason : StopReason}
    (h : ScanTrace v buf rs reason rest) : ∀ {s : State} {n : Nat}, s.params.versionCheckAt = v → s.buf = buf →
    rs.length < n → stepUntilStop n s = .next { s with
      buf := rest
      results := s.results ++ (rs ++ [StepResult.stop reason]).map fun r => .ok (.step r) } := by
  induction h with
  | stop hscan =>
    rintro s (_ | n) rfl rfl hn
    · cases hn
    · exact stepUntilStop_of_stop hscan n
  | next hscan hr _ ih =>
    rintro s (_ | n) rfl rfl hn
    · cases hn
    · rw [stepUntilStop_of_ne_stop hscan hr, ih]
      · simp
      · rfl
      · rfl
      · exact Nat.lt_of_succ_lt_succ hn

/-- Settles O45: the STEPs of DRAINSTEPS are those of the drain's trace. -/
theorem drainStepsEndsAsDrain : Obligations.DrainStepsEndsAsDrain := by
  intro s
  obtain ⟨rs, htrace, hframes⟩ := exists_scanTrace s.params.versionCheckAt s.buf
  refine ⟨_, _, _, rs, exec_drain_of_eq rfl, htrace.stepUntilStop_eq rfl rfl (Nat.lt_succ_of_le htrace.length_le),
    htrace.length_le, htrace.ne_stop, ?_⟩
  rw [← hframes]
  congr 1
  funext r
  cases r <;> rfl

end Sys2Proof.Machine
end
